-- ==== Sys2Proof/Word.lean ====
section
/-! DEFINITION. The data types of 00_scope.md R14: `u8`, `uT`, `uid`, and the two fixed byte sequences the
operations carry (a 26-byte frame, a 16-byte payload). `nat` is Lean's `Nat` and `bool` is `Bool`. -/

namespace Sys2Proof

/-- `u8` (00_scope.md R14). -/
abbrev Byte := BitVec 8

/-- `uT` (00_scope.md R14) with `TIME_WIDTH` = 32 (R12, decision D2). -/
abbrev Time := BitVec 32

/-- `uid` (00_scope.md R14): exactly four bytes in frame order; equality is byte-exact on all four. -/
structure Uid where
  u0 : Byte
  u1 : Byte
  u2 : Byte
  u3 : Byte
  deriving DecidableEq, Repr, Inhabited

/-- A complete response frame `F[0..25]` (`FRAME_LEN` = 26, 00_scope.md R9). -/
abbrev Frame := Vector Byte 26

/-- The payload bytes 8 to 23 of a response frame (30_encoding.md R97). -/
abbrev Payload := Vector Byte 16

/-- The poll frame `POLL[0..14]` (`POLL_LEN` = 15, 00_scope.md R9). -/
abbrev PollFrame := Vector Byte 15

end Sys2Proof
end

