-- ==== Sys2Proof/Config.lean ====
section
/-! DEFINITION. The parameters of one reader instance (00_scope.md R10 to R12) and the values the spec leaves
open. The parameters are held in State (`cfg`), so that every statement holds for every instance. An `opaque`
constant here has no body: nothing can be proved of its value. -/

namespace Sys2Proof

/-- The parameters of an instance that are not the same for every instance: 00_scope.md R10 (constructor
arguments), R11 (open) and R12 (added by the spec). -/
structure Params where
  /-- `TICK_DIVIDER`, at least 1 (R10; 0 is refused at construction, U3). -/
  tickDivider : ℕ+
  /-- `REQ_INTERVAL_MS` (R10). -/
  reqIntervalMs : Time
  /-- `DEBOUNCE_WINDOW_MS` (R11, OPEN). -/
  debounceWindowMs : Time
  /-- `HDR2`, the len-marker byte of the response header (R11, OPEN). -/
  hdr2 : Byte
  /-- `HDR3`, the reserved byte of the response header (R11, OPEN). -/
  hdr3 : Byte
  /-- `RX_FIFO_DEPTH` (R11, OPEN): `none` is "unbounded". -/
  rxFifoDepth : Option Nat
  /-- `UID_RESET` (R12, decision D7). -/
  uidReset : Uid
  /-- `DIAG` (R12, decision D16): whether the two diagnostic counters exist. -/
  diag : Bool
  deriving DecidableEq, Repr

namespace Config

/-- `FRAME_LEN` (00_scope.md R9). -/
abbrev frameLen : Nat := 26
/-- `HDR_LEN` (00_scope.md R9). -/
abbrev hdrLen : Nat := 4
/-- `UID_OFF` (00_scope.md R9). -/
abbrev uidOff : Nat := 4
/-- `UID_LEN` (00_scope.md R9). -/
abbrev uidLen : Nat := 4
/-- `BCC_IDX` = `FRAME_LEN − 2` (00_scope.md R9, 90_conflicts.md C1). -/
abbrev bccIdx : Nat := 24
/-- `ETX_IDX` = `FRAME_LEN − 1` (00_scope.md R9, 90_conflicts.md C1). -/
abbrev etxIdx : Nat := 25
/-- `POLL_LEN` (00_scope.md R9). -/
abbrev pollLen : Nat := 15
/-- `BAUD` (00_scope.md R9): the transport's serial rate, named by SETUP and used by no rule. -/
abbrev baud : Nat := 9600
/-- `TIME_WIDTH` (00_scope.md R12, decision D2). -/
abbrev timeWidth : Nat := 32
/-- `SENTINEL` (00_scope.md R12): the reference UID after a presence event. -/
abbrev sentinel : Uid := ⟨0x00, 0x00, 0x00, 0x00⟩

/-! What each instance decides (DESIGN CHOICE, safe, log entry 6): `State.reset` is the reset state of an
instance whose parameters are these unknown constants. -/

/-- The `TICK_DIVIDER` the instance of `State.reset` was constructed with (00_scope.md R10). -/
opaque tickDivider : ℕ+
/-- The `REQ_INTERVAL_MS` the instance of `State.reset` was constructed with (00_scope.md R10). -/
opaque reqIntervalMs : Time
/-- The instance's `DEBOUNCE_WINDOW_MS` (00_scope.md R11, decision D11: OPEN). -/
opaque debounceWindowMs : Time
/-- The instance's `HDR2` (00_scope.md R11, decision D10: OPEN). -/
opaque hdr2 : Byte
/-- The instance's `HDR3` (00_scope.md R11, decision D10: OPEN). -/
opaque hdr3 : Byte
/-- The transport's `RX_FIFO_DEPTH` (00_scope.md R11, decision D20: OPEN). -/
opaque rxFifoDepth : Option Nat

/-- The parameters of the instance that `State.reset` describes: unknown where the spec leaves them to the
instance, `UID_RESET` = FF FF FF FF and `DIAG` present as 00_scope.md R12 decides. -/
def params : Params :=
  { tickDivider := tickDivider, reqIntervalMs := reqIntervalMs, debounceWindowMs := debounceWindowMs,
    hdr2 := hdr2, hdr3 := hdr3, rxFifoDepth := rxFifoDepth,
    uidReset := ⟨0xFF, 0xFF, 0xFF, 0xFF⟩, diag := true }

/-! Free values: each is applied to `State.freeCount`, so that every draw is fresh (log entry 12). -/

/-- Free value (U1, 20_memory.md R68): what the receive queue holds after an overrun; log entry 14. -/
opaque overrunQueue : Nat → List Byte
/-- Free value (U7, decision D18): whether the transport enqueues a write request; log entry 15. -/
opaque txDelivered : Nat → Bool
/-- Free value (70_reset_and_hazards.md R272): whether bytes waiting at a RESET are kept; log entry 13. -/
opaque rxqKept : Nat → Bool

end Config

end Sys2Proof
end

