-- ==== Sys2Proof/Machine/Operands.lean ====
section
/-! DEFINITION. Operand assembly and the pure functions of the CORE: the constants a byte is compared with, the
block check character, the UID field, and the time arithmetic of 00_scope.md R15. -/

namespace Sys2Proof.Machine

/-- `HDR[idx]`, the header constant (00_scope.md R9, R11). -/
def hdrByte (c : Params) : Fin 4 → Byte
  | 0 => 0x02
  | 1 => 0x00
  | 2 => c.hdr2
  | 3 => c.hdr3

/-- `HDR[0..3]` in frame order. -/
def header (c : Params) : List Byte :=
  [hdrByte c 0, hdrByte c 1, hdrByte c 2, hdrByte c 3]

/-- `POLL[0..14]`, the contents of POLLROM (20_memory.md R74, 30_encoding.md R93 and R95). -/
def pollFrame : PollFrame :=
  #v[0x02, 0x00, 0x0A, 0x20, 0x01, 0x01, 0x04, 0xFF, 0xFF, 0xFF, 0xFF, 0xFF, 0xFF, 0x2E, 0x03]

/-- BCC(`F`, `L`) with `L` the length of `f` (43_checksum.md R190): seeded with `F[1]`, XOR-folding `F[2]` to
`F[L − 3]`. -/
def bcc (f : List Byte) : Byte :=
  ((f.take (f.length - 2)).drop 2).foldl (fun c b => c ^^^ b) (f.getD 1 0)

/-- The result of BCC.CHK(`F`) (43_checksum.md R192): the computed value equals `F[FRAME_LEN − 2]`. -/
def bccAccepts (f : Frame) : Bool :=
  bcc f.toList == f[Config.bccIdx]

/-- The result of UIDX(`F`) (44_uid_extract.md R205): `u[k] = F[UID_OFF + k]`. -/
def uidField (f : Frame) : Uid :=
  ⟨f[Config.uidOff], f[Config.uidOff + 1], f[Config.uidOff + 2], f[Config.uidOff + 3]⟩

/-- The four bytes of a UID in frame order (20_memory.md R70). -/
def uidBytes (u : Uid) : List Byte := [u.u0, u.u1, u.u2, u.u3]

/-- The 26 bytes of a RESP of the instance (30_encoding.md R97; the `FRAME` pseudo-operation of R107): header,
UID, payload, the checksum of R190, terminator. -/
def respBytes (c : Params) (u : Uid) (p : Payload) (terminator : Byte) : List Byte :=
  let body := header c ++ uidBytes u ++ p.toList
  body ++ [bcc (body ++ [0, terminator]), terminator]

/-- `now -T then` (00_scope.md R15): the difference modulo `2 ^ TIME_WIDTH`. -/
def elapsed (now since : Time) : Time := now - since

/-- `a > b` on `uT` (00_scope.md R15): unsigned and strict. -/
def exceeds (a b : Time) : Bool := decide (b.toNat < a.toNat)

/-- A 32-bit number from four bytes, the most significant first (DESIGN CHOICE, safe: log entry 3). -/
def wordOfBytes (b3 b2 b1 b0 : Byte) : BitVec 32 := b3 ++ b2 ++ b1 ++ b0

/-- The four bytes of a 32-bit number, the most significant first: what `wordOfBytes` reads. -/
def bytesOfWord (w : BitVec 32) : List Byte :=
  [w.extractLsb' 24 8, w.extractLsb' 16 8, w.extractLsb' 8 8, w.extractLsb' 0 8]

/-- A natural number from its bytes, the most significant first; no byte gives 0 (DESIGN CHOICE, safe: log entry 3). -/
def natOfBytes (bs : List Byte) : Nat := bs.foldl (fun n b => 256 * n + b.toNat) 0

/-- The bytes of `n`, the least significant first, as many as it has and at most `fuel`. -/
def littleBytes : Nat → Nat → List Byte
  | 0, _ => []
  | fuel + 1, n => if n = 0 then [] else BitVec.ofNat 8 n :: littleBytes fuel (n / 256)

/-- The bytes of a natural number, the most significant first, as many as it has and none that is a leading zero: what
`natOfBytes` reads. A number `n` never has more than `n` bytes. -/
def bytesOfNat (n : Nat) : List Byte := (littleBytes n n).reverse

/-- A list of exactly `n` bytes as a vector. -/
def vectorOfList (n : Nat) (l : List Byte) : Option (Vector Byte n) :=
  if h : l.length = n then some ⟨⟨l⟩, h⟩ else none

end Sys2Proof.Machine
end

