-- ==== Sys2Proof/Syntax.lean ====
section
/-! DEFINITION. The operations of the CORE (30_encoding.md R100), one constructor for each row of
spec/opcode_table.json, and the form in which an encoded operation waits to be carried out. -/

namespace Sys2Proof

/-- The operations of 30_encoding.md R100: the spec's "instructions" (00_scope.md R8). -/
inductive Instr where
  /-- RESET, code 00 (70_reset_and_hazards.md R270): `TICK_DIVIDER` (nat) and `REQ_INTERVAL_MS`. -/
  | reset (tickDivider : Nat) (reqIntervalMs : Time)
  /-- SETUP, code 01 (40_tick_gate.md R120). -/
  | setup
  /-- TICK, code 02 (40_tick_gate.md R121). -/
  | tick (now : Time)
  /-- RXARRIVE, code 08 (20_memory.md R63). -/
  | rxArrive (b : Byte)
  /-- GATE, code 10 (40_tick_gate.md R124). -/
  | gate
  /-- SCHED, code 11 (41_request_scheduler.md R140). -/
  | sched (now : Time)
  /-- DRAIN, code 12 (42_frame_sync.md R160). -/
  | drain (now : Time)
  /-- RXB.SEEK, code 20 (42_frame_sync.md R162). -/
  | rxbSeek (b : Byte)
  /-- RXB.ACC, code 21 (42_frame_sync.md R163). -/
  | rxbAcc (b : Byte) (now : Time)
  /-- COMPLETE, code 22 (42_frame_sync.md R170). -/
  | complete (now : Time)
  /-- BCC.CHK, code 23 (43_checksum.md R192). -/
  | bccChk (f : Frame)
  /-- UIDX, code 24 (44_uid_extract.md R205). -/
  | uidx (f : Frame)
  /-- DEB.STORE, code 30 (45_debounce.md R218). -/
  | debStore (u : Uid) (t : Time)
  /-- DEB.FIRE, code 31 (45_debounce.md R219). -/
  | debFire (u : Uid)
  /-- POLL.READ, the outbound wire frame of format PF15 (30_encoding.md R93): every byte is fixed. -/
  | pollRead
  /-- RESP, the inbound wire frame of format RF26 (30_encoding.md R97): the header is the instance's and the
  checksum is determined, so the UID, the payload and the terminator are all that is free. -/
  | resp (uid : Uid) (payload : Payload) (terminator : Byte)
  deriving DecidableEq, Repr

/-- The `format` column of spec/opcode_table.json (30_encoding.md R90, R108): which encoding the bytes of an
operation follow. -/
inductive Format where
  /-- `OPCODE8`: the one-byte code of R100, then the operation's arguments (R107). -/
  | opcode8
  /-- `PF15`: the 15 bytes of an outbound frame (R92). -/
  | pf15
  /-- `RF26`: the 26 bytes of an inbound frame (R96). -/
  | rf26
  deriving DecidableEq, Repr

/-- One encoded operation (R107: "the sequence of its event codes with their arguments"): its format and its
bytes, the leftmost byte first (00_scope.md R13). DESIGN CHOICE, safe: log entry 3. -/
structure Packet where
  format : Format
  bytes : List Byte
  deriving DecidableEq, Repr

/-- Why the decoder refuses a packet. -/
inductive DecodeError where
  /-- A packet of format `OPCODE8` with no byte in it. -/
  | noCode
  /-- An operation code that R100 does not list (R104, U16). -/
  | unassignedCode (code : Byte)
  /-- A listed code whose argument bytes are no encoding of the operation's arguments: too few, too many, or a leading zero
  byte in RESET's `TICK_DIVIDER`. -/
  | badOperands (code : Byte)
  /-- An outbound frame that is not the poll frame: the CORE emits no other (R103). -/
  | notPollRead
  /-- An inbound frame that is not 26 bytes long (R96). -/
  | badFrameLength
  /-- An inbound frame whose bytes 0 to 3 are not the instance's header (R98 (b)). -/
  | badFrameHeader
  /-- An inbound frame whose byte 24 is not the checksum of bytes 1 to 23 (R98 (c)). -/
  | badFrameChecksum
  deriving DecidableEq, Repr

end Sys2Proof
end

