-- ==== Sys2Proof/WellFormed.lean ====
section
/-! DEFINITION. Which terms of `Instr` have an encoding: all of them. -/

namespace Sys2Proof

/-- A term is well formed when its operands fit the encoding. The type of every operand is exactly what the spec gives it
(00_scope.md R14; `TICK_DIVIDER`, a `nat` in R10, has as many bytes in a script as it needs: log entry 3), so no check
remains. A divider of 0 is well formed; RESET refuses it (U3). -/
def wellFormed : Instr → Bool
  | .reset _ _ => true
  | .setup => true
  | .tick _ => true
  | .rxArrive _ => true
  | .gate => true
  | .sched _ => true
  | .drain _ => true
  | .rxbSeek _ => true
  | .rxbAcc _ _ => true
  | .complete _ => true
  | .bccChk _ => true
  | .uidx _ => true
  | .debStore _ _ => true
  | .debFire _ => true
  | .pollRead => true
  | .resp _ _ _ => true

end Sys2Proof
end

