-- ==== Sys2Proof/Decode.lean ====
section
/-! DEFINITION. The decoder and the encoder of the operations (30_encoding.md R93, R97, R100, R107, R108), and
the reading of one row of spec/opcode_table.json. -/

namespace Sys2Proof

open Machine (hdrByte header pollFrame bcc uidBytes respBytes wordOfBytes bytesOfWord natOfBytes bytesOfNat vectorOfList)

/-- How many argument bytes follow an operation code, for RESET without those of `TICK_DIVIDER`, which are as many as the
number needs; `none` for a code that 30_encoding.md R100 does not list (R104). The arguments are those of R100 and of each
operation's rule. -/
def operandLength : Nat → Option Nat
  | 0x00 => some 4
  | 0x01 => some 0
  | 0x02 => some 4
  | 0x08 => some 1
  | 0x10 => some 0
  | 0x11 => some 4
  | 0x12 => some 4
  | 0x20 => some 1
  | 0x21 => some 5
  | 0x22 => some 4
  | 0x23 => some 26
  | 0x24 => some 26
  | 0x30 => some 8
  | 0x31 => some 4
  | _ => none

/-! How the argument bytes of a code are read, one function for each shape of arguments: `none` where they are no
encoding of such arguments. -/

/-- No argument. -/
def noOperand (i : Instr) : List Byte → Option Instr
  | [] => some i
  | _ => none

/-- One byte. -/
def byteOperand (f : Byte → Instr) : List Byte → Option Instr
  | [b] => some (f b)
  | _ => none

/-- One 32-bit number. -/
def wordOperand (f : BitVec 32 → Instr) : List Byte → Option Instr
  | [n3, n2, n1, n0] => some (f (wordOfBytes n3 n2 n1 n0))
  | _ => none

/-- One byte, then one 32-bit number. -/
def byteWordOperands (f : Byte → BitVec 32 → Instr) : List Byte → Option Instr
  | [b, n3, n2, n1, n0] => some (f b (wordOfBytes n3 n2 n1 n0))
  | _ => none

/-- A natural number of any size (00_scope.md R10) without a leading zero byte, then one 32-bit number: the last four bytes
are the second, all before them the first. -/
def natWordOperands (f : Nat → BitVec 32 → Instr) (args : List Byte) : Option Instr :=
  match args.take (args.length - 4), args.drop (args.length - 4) with
  | number, [n3, n2, n1, n0] =>
    if number.head? = some 0 then none else some (f (natOfBytes number) (wordOfBytes n3 n2 n1 n0))
  | _, _ => none

/-- A complete frame. -/
def frameOperand (f : Frame → Instr) (args : List Byte) : Option Instr := (vectorOfList Config.frameLen args).map f

/-- A UID. -/
def uidOperand (f : Uid → Instr) : List Byte → Option Instr
  | [u0, u1, u2, u3] => some (f ⟨u0, u1, u2, u3⟩)
  | _ => none

/-- A UID, then one 32-bit number. -/
def uidWordOperands (f : Uid → BitVec 32 → Instr) : List Byte → Option Instr
  | [u0, u1, u2, u3, t3, t2, t1, t0] => some (f ⟨u0, u1, u2, u3⟩ (wordOfBytes t3 t2 t1 t0))
  | _ => none

/-- The operation with the given code and argument bytes, where R100 lists the code and the bytes encode the arguments the
operation carries. -/
def decodeOperation (code : Nat) (args : List Byte) : Option Instr :=
  match code with
  | 0x00 => natWordOperands .reset args
  | 0x01 => noOperand .setup args
  | 0x02 => wordOperand .tick args
  | 0x08 => byteOperand .rxArrive args
  | 0x10 => noOperand .gate args
  | 0x11 => wordOperand .sched args
  | 0x12 => wordOperand .drain args
  | 0x20 => byteOperand .rxbSeek args
  | 0x21 => byteWordOperands .rxbAcc args
  | 0x22 => wordOperand .complete args
  | 0x23 => frameOperand .bccChk args
  | 0x24 => frameOperand .uidx args
  | 0x30 => uidWordOperands .debStore args
  | 0x31 => uidOperand .debFire args
  | _ => none

/-- Decoding of format `OPCODE8`: the code, then the arguments. -/
def decodeOpcode8 : List Byte → Except DecodeError Instr
  | [] => .error .noCode
  | code :: args =>
    match operandLength code.toNat with
    | none => .error (.unassignedCode code)
    | some _ =>
      match decodeOperation code.toNat args with
      | some i => .ok i
      | none => .error (.badOperands code)

/-- Decoding of format `PF15` (30_encoding.md R93, R103): the poll frame and nothing else. -/
def decodePf15 (bytes : List Byte) : Except DecodeError Instr :=
  if bytes = pollFrame.toList then .ok .pollRead else .error .notPollRead

/-- Decoding of format `RF26` for an instance (30_encoding.md R98 and R108): 26 bytes, the instance's header, the
right checksum; the terminator is free. -/
def decodeRf26 (c : Params) (bytes : List Byte) : Except DecodeError Instr :=
  if bytes.length ≠ Config.frameLen then .error .badFrameLength
  else if bytes.take Config.hdrLen ≠ header c then .error .badFrameHeader
  else if bytes.getD Config.bccIdx 0 ≠ bcc bytes then .error .badFrameChecksum
  else
    match vectorOfList 16 ((bytes.drop 8).take 16) with
    | none => .error .badFrameLength
    | some p =>
      .ok (.resp ⟨bytes.getD 4 0, bytes.getD 5 0, bytes.getD 6 0, bytes.getD 7 0⟩ p (bytes.getD Config.etxIdx 0))

/-- The decoder: total on any packet; it refuses by name what is no operation of the instance. -/
def decode (c : Params) (p : Packet) : Except DecodeError Instr :=
  match p.format with
  | .opcode8 => decodeOpcode8 p.bytes
  | .pf15 => decodePf15 p.bytes
  | .rf26 => decodeRf26 c p.bytes

/-- A packet of format `OPCODE8`. -/
def opcodePacket (code : Byte) (args : List Byte) : Packet := ⟨.opcode8, code :: args⟩

/-- The encoder: the packet of an operation, written from the same tables. -/
def encode (c : Params) : Instr → Packet
  | .reset d i => opcodePacket 0x00 (bytesOfNat d ++ bytesOfWord i)
  | .setup => opcodePacket 0x01 []
  | .tick now => opcodePacket 0x02 (bytesOfWord now)
  | .rxArrive b => opcodePacket 0x08 [b]
  | .gate => opcodePacket 0x10 []
  | .sched now => opcodePacket 0x11 (bytesOfWord now)
  | .drain now => opcodePacket 0x12 (bytesOfWord now)
  | .rxbSeek b => opcodePacket 0x20 [b]
  | .rxbAcc b now => opcodePacket 0x21 (b :: bytesOfWord now)
  | .complete now => opcodePacket 0x22 (bytesOfWord now)
  | .bccChk f => opcodePacket 0x23 f.toList
  | .uidx f => opcodePacket 0x24 f.toList
  | .debStore u t => opcodePacket 0x30 (uidBytes u ++ bytesOfWord t)
  | .debFire u => opcodePacket 0x31 (uidBytes u)
  | .pollRead => ⟨.pf15, pollFrame.toList⟩
  | .resp u p t => ⟨.rf26, respBytes c u p t⟩

/-- The `n` bytes of a table number from byte `k` on: bit 0 of the number is bit 0 of byte 0, and byte `k` is its
bits `8k + 7` to `8k`. -/
def tableBytes (w : Nat) : Nat → Nat → List Byte
  | _, 0 => []
  | k, n + 1 => BitVec.ofNat 8 (w >>> (8 * k)) :: tableBytes w (k + 1) n

/-- The packet of a row of spec/opcode_table.json whose `nbits` bits are `w`. A row of 120 bits is of format PF15, a
row of 208 bits of format RF26, and any other an `OPCODE8` whose argument bytes above `nbits` are 0 (log entry 4). -/
def tablePacket (nbits w : Nat) : Packet :=
  let v := w % 2 ^ nbits
  if nbits = 120 then ⟨.pf15, tableBytes v 0 15⟩
  else if nbits = 208 then ⟨.rf26, tableBytes v 0 26⟩
  else ⟨.opcode8, tableBytes v 0 (1 + (operandLength (v % 256)).getD 0)⟩

/-- The instance a table row is read for. The row RESP leaves bytes 2 and 3 to the instance (30_encoding.md R108), so a
word of that row stands for a response of the instance with the `HDR2` and `HDR3` it shows; any other row says nothing
of the instance (log entry 4). -/
def tableParams (c : Params) (nbits w : Nat) : Params :=
  if nbits = 208 then { c with hdr2 := BitVec.ofNat 8 (w >>> 16), hdr3 := BitVec.ofNat 8 (w >>> 24) } else c

/-- What the decoder reads from a table row, for the instance of `State.reset` as far as the row leaves it open. -/
def decodeTableWord (nbits w : Nat) : Option Instr :=
  match decode (tableParams Config.params nbits w) (tablePacket nbits w) with
  | .ok i => some i
  | .error _ => none

end Sys2Proof
end

