-- ==== Sys2Proof/Machine/State.lean ====
section
/-! DEFINITION. The state of the machine as plain data (10_state.md R20, R21 and R43 to R45), the reasons a step can
stop, and the state after reset (70_reset_and_hazards.md R270 to R272). -/

namespace Sys2Proof.Machine

/-- S3 `sync_state` (10_state.md R28); the source's `COMPLETE` is never stored. -/
inductive SyncState where
  | seekingHeader
  | accumulating
  deriving DecidableEq, Repr

/-- The three fault classes the CORE absorbs (60_exceptions.md R240). None of them stops a step. -/
inductive FaultClass where
  /-- Code 1, HEADER_MISMATCH (R241). -/
  | headerMismatch
  /-- Code 2, CHECKSUM_MISMATCH (R242). -/
  | checksumMismatch
  /-- Code 3, TRANSPORT_UNDERRUN (R243). -/
  | transportUnderrun
  deriving DecidableEq, Repr

/-- One entry of `txlog` (10_state.md R44): a write request. `delivered` is the transport's free choice, all 15 bytes
or none (20_memory.md R66, U7; log entry 15); no rule reads it. -/
structure TxRequest where
  now : Time
  frame : PollFrame
  delivered : Bool
  deriving DecidableEq, Repr

/-- One entry of `evlog` (10_state.md R44): a presence event. -/
structure PresenceEvent where
  uid : Uid
  now : Time
  deriving DecidableEq, Repr

/-- The MODEL's record of what a value-returning micro-operation answered when it was carried out by itself (log
entry 11); inside a TICK the value is handed on directly. -/
inductive OpResult where
  | none
  /-- GATE: `true` = process this TICK (40_tick_gate.md R124). -/
  | gate (processed : Bool)
  /-- BCC.CHK (43_checksum.md R192). -/
  | bccChk (accepted : Bool)
  /-- UIDX (44_uid_extract.md R205). -/
  | uidx (u : Uid)
  deriving DecidableEq, Repr

/-- The cells of BUF (20_memory.md R60): (index, byte) pairs, indices strictly rising, none equal to what an unlisted
cell reads as. -/
abbrev Memory := List Host.Cell

/-- The complete state: S1 to S13 and the configuration constants (10_state.md R20), the state outside the CORE that
its rules touch (R43 to R45), and three fields of the model's own. -/
structure State where
  /-- S1 `tick_counter` (R37). -/
  tickCounter : Nat
  /-- S2 `last_request_ts` (R25). -/
  lastRequestTs : Time
  /-- S3 `sync_state` (R28). -/
  syncState : SyncState
  /-- S4 `hdr_idx` (R29): 0 to 3. -/
  hdrIdx : Fin 4
  /-- S5 `buf[0..25]` (R22). -/
  buf : Memory
  /-- S6 `buf_len` (R30): the value 26 is never stored across a byte. -/
  bufLen : Fin 26
  /-- S7 `last_seen_uid` (R23). -/
  lastSeenUid : Uid
  /-- S8 `last_seen_ts` (R24). -/
  lastSeenTs : Time
  /-- S9 `armed` (R34). -/
  armed : Bool
  /-- S10 `hdr_mismatch_cnt` (R38). -/
  hdrMismatchCnt : Nat
  /-- S11 `bcc_fail_cnt` (R38). -/
  bccFailCnt : Nat
  /-- S12 `link_up` (R39). -/
  linkUp : Bool
  /-- S13 `in_tick` (R40). -/
  inTick : Bool
  /-- The configuration constants (R36). -/
  cfg : Params
  /-- X1 `rxq` (R43), the oldest byte first. -/
  rxq : List Byte
  /-- X2 `txlog` (R44), the oldest request first. -/
  txlog : List TxRequest
  /-- X3 `evlog` (R44), the oldest event first. -/
  evlog : List PresenceEvent
  /-- X4, the clock (R45): the sample of the TICK last processed (log entry 10). -/
  clock : Time
  /-- The MODEL's own: what a value-returning micro-operation answered (log entry 11). -/
  result : OpResult
  /-- The MODEL's own: how many free values have been drawn (log entry 12). -/
  freeCount : Nat
  /-- The MODEL's own: the operations still to be carried out, oldest first (log entry 2). -/
  pending : List Packet
  deriving DecidableEq, Repr

/-- No condition in the CORE is fatal (60_exceptions.md R244), so a step never ends in a fault: the type has no
constructor (log entry 19). The three fault classes the spec names are absorbed (`FaultClass`). -/
inductive Fault where
  deriving DecidableEq, Repr

/-- Why the model gives an event no meaning. Each is safe: nothing can be claimed of a run that contains one. -/
inductive Refusal where
  /-- An arm of `exec` without a meaning; raised by no instruction of this model. Safe. -/
  | notModelled (mnemonic : String)
  /-- REFUSE_NOT_SET_UP (60_exceptions.md R245 (a)): TICK with `link_up = false`. Safe. -/
  | notSetUp
  /-- REFUSE_REENTRANT (R245 (b)): TICK, SETUP or RESET with `in_tick = true`. Safe. -/
  | reentrant
  /-- REFUSE_BAD_CONFIG (R245 (c)): RESET with `TICK_DIVIDER = 0`. Safe. -/
  | badConfig
  /-- Raised by `step`: the next packet is no operation of the instance (30_encoding.md R104, U16). Safe. -/
  | undecodable (e : DecodeError)
  deriving DecidableEq, Repr

/-- The machine right after reset (70_reset_and_hazards.md R270 to R272) of the instance `Config.params`. -/
def State.reset : State :=
  { tickCounter := 0, lastRequestTs := 0, syncState := .seekingHeader, hdrIdx := 0, buf := [], bufLen := 0,
    lastSeenUid := Config.params.uidReset, lastSeenTs := 0, armed := false, hdrMismatchCnt := 0, bccFailCnt := 0,
    linkUp := false, inTick := false, cfg := Config.params, rxq := [], txlog := [], evlog := [], clock := 0,
    result := .none, freeCount := 0, pending := [] }

end Sys2Proof.Machine
end

