-- ==== Sys2Proof/Machine/Flags.lean ====
section
/-! DEFINITION. The one flag of the CORE, `armed` (10_state.md R34, R35), and the two timer gates
(60_exceptions.md R253). -/

namespace Sys2Proof.Machine

/-- Writes the flag `armed` (R34): DEB.STORE sets it, DEB.FIRE clears it, nothing reads it. -/
def setArmed (a : Bool) (s : State) : State := { s with armed := a }

/-- The request gate (R253; 41_request_scheduler.md R140): `(now -T last_request_ts) > REQ_INTERVAL_MS`. -/
def requestDue (now : Time) (s : State) : Bool :=
  exceeds (elapsed now s.lastRequestTs) s.cfg.reqIntervalMs

/-- The debounce gate (R253; 45_debounce.md R220): `(t -T last_seen_ts) > DEBOUNCE_WINDOW_MS`. -/
def windowExpired (t : Time) (s : State) : Bool :=
  exceeds (elapsed t s.lastSeenTs) s.cfg.debounceWindowMs

end Sys2Proof.Machine
end

