-- ==== Sys2Proof/Machine/Ops.lean ====
section
/-! DEFINITION. The named operations the micro-operations are made of: the cells of BUF, the three transport
primitives (20_memory.md R62), the presence event, raising an absorbed fault, the sequencing state, and fetching. -/

namespace Sys2Proof.Machine

/-! The cells of BUF (20_memory.md R60, R61). -/

/-- What a cell of BUF that nothing has written reads as: the spec leaves it unspecified (U9; DESIGN CHOICE, unsafe:
log entry 8). -/
def Memory.unlisted : Byte := 0

/-- `buf[a]`: the byte of cell `a`. -/
def Memory.read : Memory → Nat → Byte
  | [], _ => Memory.unlisted
  | (b, w) :: m, a => if a = b then w else Memory.read m a

/-- `buf[a] <- v`, keeping the canonical form: a cell that gets what an unlisted cell reads as is not listed. -/
def Memory.write : Memory → Nat → Byte → Memory
  | [], a, v => if v = Memory.unlisted then [] else [(a, v)]
  | (b, w) :: m, a, v =>
    if a < b then (if v = Memory.unlisted then (b, w) :: m else (a, v) :: (b, w) :: m)
    else if a = b then (if v = Memory.unlisted then m else (a, v) :: m)
    else (b, w) :: Memory.write m a v

/-- The canonical form: every listed cell is one of the 26, the indices rise strictly, and no listed byte is what an
unlisted cell reads as. -/
def Memory.wf : Memory → Bool
  | [] => true
  | (a, v) :: m =>
    decide (a < Config.frameLen) && decide (v ≠ Memory.unlisted) && m.all (fun c => decide (a < c.1)) && Memory.wf m

/-- `buf[0..25]` as one value (20_memory.md R80 (3)). -/
def Memory.frame (m : Memory) : Frame := Vector.ofFn fun k => Memory.read m k.val

/-- `buf[0..3] <- HDR[0..3]` (20_memory.md R80 (1), 42_frame_sync.md R165). -/
def seedHeader (c : Params) (m : Memory) : Memory :=
  Memory.write (Memory.write (Memory.write (Memory.write m 0 (hdrByte c 0)) 1 (hdrByte c 1)) 2 (hdrByte c 2)) 3
    (hdrByte c 3)

/-! The receive queue. -/

/-- `RxAvailable()` (20_memory.md R64). -/
def rxAvailable (s : State) : Bool := !s.rxq.isEmpty

/-- `RxRead()` (20_memory.md R65): the oldest byte and the queue without it, or `none` and no change. -/
def rxRead (s : State) : Option Byte × State :=
  match s.rxq with
  | [] => (none, s)
  | b :: q => (some b, { s with rxq := q })

/-- Whether one more byte overruns the queue (20_memory.md R68): `RX_FIFO_DEPTH` is a number and as many bytes wait. -/
def rxFull (s : State) : Bool :=
  match s.cfg.rxFifoDepth with
  | none => false
  | some d => decide (d ≤ s.rxq.length)

/-- What the queue holds after an overrun: any byte sequence the queue has room for (20_memory.md R68, U1; a free
value, log entry 14). -/
def overrunContents (s : State) : List Byte :=
  match s.cfg.rxFifoDepth with
  | none => Config.overrunQueue s.freeCount
  | some d => (Config.overrunQueue s.freeCount).take d

/-- The transport appends one byte (20_memory.md R63), or overruns (R68). -/
def rxPush (s : State) (b : Byte) : State :=
  if rxFull s then { s with rxq := overrunContents s, freeCount := s.freeCount + 1 }
  else { s with rxq := s.rxq ++ [b] }

/-- The transport appends bytes one after the other (30_encoding.md R107: one RXARRIVE per byte, in order). -/
def rxPushAll (bs : List Byte) (s : State) : State := bs.foldl rxPush s

/-! The transmit stream. -/

/-- `TxWrite(POLL[0..14])` (20_memory.md R66, 41_request_scheduler.md R142): one write request, recorded whatever the
transport does with the bytes (decision D18; log entry 15). -/
def txWrite (now : Time) (s : State) : State :=
  { s with
    txlog := s.txlog ++ [⟨now, pollFrame, Config.txDelivered s.freeCount⟩]
    freeCount := s.freeCount + 1 }

/-- The bytes the transport has enqueued, in the order of the requests and, inside one, in index order (20_memory.md
R67): the other view of `txlog`. -/
def transmitStream (s : State) : List Byte :=
  s.txlog.flatMap fun r => if r.delivered then r.frame.toList else []

/-! The outward event and the absorbed faults. -/

/-- `Presence(u)` (45_debounce.md R222): one entry of `evlog`, tagged with the clock sample. -/
def presence (u : Uid) (now : Time) (s : State) : State := { s with evlog := s.evlog ++ [⟨u, now⟩] }

/-- Raising a fault (60_exceptions.md R240, R249): it saves nothing, changes no mode and transfers control nowhere;
the whole effect is a diagnostic counter, where `DIAG` is present (10_state.md R38), and none for an underrun (R243). -/
def raise (c : FaultClass) (s : State) : State :=
  match c with
  | .headerMismatch => if s.cfg.diag then { s with hdrMismatchCnt := s.hdrMismatchCnt + 1 } else s
  | .checksumMismatch => if s.cfg.diag then { s with bccFailCnt := s.bccFailCnt + 1 } else s
  | .transportUnderrun => s

/-! The sequencing state. -/

/-- The synchronizer back in `SEEKING_HEADER`, header index and buffer length 0 (42_frame_sync.md R171); the cells of
BUF stay as they are (10_state.md R22). -/
def resetSync (s : State) : State := { s with syncState := .seekingHeader, hdrIdx := 0, bufLen := 0 }

/-- The synchronizer has a match or a frame unfinished (60_exceptions.md R240, condition of TRANSPORT_UNDERRUN). -/
def unfinished (s : State) : Bool := decide (s.hdrIdx ≠ 0) || decide (s.syncState = .accumulating)

/-! Fetching. -/

/-- The next packet and the state without it; `none` when nothing waits (log entry 2). -/
def fetch (s : State) : Option (Packet × State) :=
  match s.pending with
  | [] => none
  | p :: rest => some (p, { s with pending := rest })

end Sys2Proof.Machine
end

