-- ==== Sys2Proof/Machine/Check.lean ====
section
/-! DEFINITION. The two pure micro-operations carried out by themselves: BCC.CHK (43_checksum.md R192) and UIDX
(44_uid_extract.md R205). They write no state of the CORE; what they answer is in `result` (log entry 11). -/

namespace Sys2Proof.Machine

/-- BCC.CHK(`F`) (43_checksum.md R192), by itself on any 26 bytes (log entry 1). -/
def execBccChk (f : Frame) (s : State) : Host.Outcome State Fault Refusal :=
  .next { s with result := .bccChk (bccAccepts f) }

/-- UIDX(`F`) (44_uid_extract.md R205): a pure function of the 26 bytes, without a test of its own. R205 and R206 give it
accepted frames only. Carried out by itself on a frame that BCC.CHK rejects, it answers bytes 4 to 7 all the same (DESIGN
CHOICE, unsafe: log entry 27); COMPLETE never runs it on one. -/
def execUidx (f : Frame) (s : State) : Host.Outcome State Fault Refusal :=
  .next { s with result := .uidx (uidField f) }

end Sys2Proof.Machine
end

