-- ==== Sys2Proof/Machine/Scheduler.lean ====
section
/-! DEFINITION. The rate divider GATE (40_tick_gate.md R124) and the request scheduler SCHED
(41_request_scheduler.md R140). -/

namespace Sys2Proof.Machine

/-- The state after GATE (40_tick_gate.md R124): the counter grows by 1, and nothing else changes. -/
def countTick (s : State) : State := { s with tickCounter := s.tickCounter + 1 }

/-- The result of GATE's test on the new counter: `(tick_counter mod TICK_DIVIDER) = 0`. -/
def gatePasses (s : State) : Bool := decide (s.tickCounter % (s.cfg.tickDivider : Nat) = 0)

/-- GATE() (R124): the increment comes first and the test reads the new value (decision D4). -/
def gate (s : State) : Bool × State :=
  let s' := countTick s
  (gatePasses s', s')

/-- SCHED(`now`) (41_request_scheduler.md R140): the write and the new timestamp, or nothing. -/
def sched (now : Time) (s : State) : State :=
  if requestDue now s then { txWrite now s with lastRequestTs := now } else s

/-- GATE as an operation of its own, outside a TICK (log entry 1); its answer is in `result` (log entry 11). -/
def execGate (s : State) : Host.Outcome State Fault Refusal :=
  .next { (gate s).2 with result := .gate (gate s).1 }

/-- SCHED as an operation of its own, outside a TICK (log entry 1). -/
def execSched (now : Time) (s : State) : Host.Outcome State Fault Refusal := .next (sched now s)

end Sys2Proof.Machine
end

