-- ==== Sys2Proof/Machine/Debounce.lean ====
section
/-! DEFINITION. The presence debouncer (45_debounce.md): DEB and its two outcomes. -/

namespace Sys2Proof.Machine

/-- DEB.STORE(`u`, `t`) (R218): the read becomes the candidate; no event. -/
def debStore (u : Uid) (t : Time) (s : State) : State :=
  setArmed true { s with lastSeenUid := u, lastSeenTs := t }

/-- DEB.FIRE(`u`) (R219) in a TICK whose sample is `now`: the sentinel, the flag cleared, then the presence event;
`last_seen_ts` is not written (decision D8). -/
def debFire (u : Uid) (now : Time) (s : State) : State :=
  presence u now (setArmed false { s with lastSeenUid := Config.sentinel })

/-- DEB(`u`, `t`), the dispatch (R217): store on another UID or an expired window, else fire. It never reads `armed`
(90_conflicts.md C2). -/
def deb (u : Uid) (t : Time) (s : State) : State :=
  if u ≠ s.lastSeenUid || windowExpired t s then debStore u t s else debFire u t s

/-- DEB.STORE as an operation of its own (R218), without the test of R217 that selects it (log entry 1). -/
def execDebStore (u : Uid) (t : Time) (s : State) : Host.Outcome State Fault Refusal :=
  .next (debStore u t s)

/-- DEB.FIRE as an operation of its own (R219), without the test of R217 that selects it (log entry 1). It carries no
clock sample, so the event is tagged with the clock of the TICK last processed (10_state.md R45; log entry 10). -/
def execDebFire (u : Uid) (s : State) : Host.Outcome State Fault Refusal :=
  .next (debFire u s.clock s)

end Sys2Proof.Machine
end

