-- ==== Sys2Proof/Machine/Sync.lean ====
section
/-! DEFINITION. The frame synchronizer (42_frame_sync.md): RXB.SEEK, RXB.ACC, COMPLETE and DRAIN. -/

namespace Sys2Proof.Machine

/-- RXB.SEEK(`b`) (R162): advance on a match (R164), complete the header on the fourth (R165), and start over on a
mismatch without testing the byte again (R166). -/
def rxbSeek (b : Byte) (s : State) : State :=
  if b = hdrByte s.cfg s.hdrIdx then
    if h : s.hdrIdx.val < 3 then { s with hdrIdx := ⟨s.hdrIdx.val + 1, Nat.succ_lt_succ h⟩ }
    else
      { s with buf := seedHeader s.cfg s.buf, bufLen := 4, hdrIdx := 0, syncState := .accumulating }
  else raise .headerMismatch { s with hdrIdx := 0 }

/-- COMPLETE(`now`) (R170): the frame is taken as a value, the synchronizer is reset whatever the outcome (R171), then
the checksum decides between the debouncer and CHECKSUM_MISMATCH. -/
def complete (now : Time) (s : State) : State :=
  let f := s.buf.frame
  let s := resetSync s
  if bccAccepts f then deb (uidField f) now s else raise .checksumMismatch s

/-- RXB.ACC(`b`, `now`) (R163, R168): the byte is stored whatever its value; the 26th runs COMPLETE, which sets
`buf_len` to 0 without reading it, so the passing value 26 is not stored (10_state.md R30). -/
def rxbAcc (b : Byte) (now : Time) (s : State) : State :=
  let s' : State := { s with buf := s.buf.write s.bufLen.val b }
  if h : s.bufLen.val + 1 < Config.frameLen then { s' with bufLen := ⟨s.bufLen.val + 1, h⟩ }
  else complete now s'

/-- The operation a received byte runs (10_state.md R27). -/
def rxByte (b : Byte) (now : Time) (s : State) : State :=
  match s.syncState with
  | .seekingHeader => rxbSeek b s
  | .accumulating => rxbAcc b now s

/-- The loop of DRAIN (R160, R161) with at most `n` turns. -/
def drainLoop (now : Time) : Nat → State → State
  | 0, s => s
  | n + 1, s =>
    if rxAvailable s then
      match rxRead s with
      | (none, s') => s'
      | (some b, s') => drainLoop now n (rxByte b now s')
    else s

/-- DRAIN(`now`) (R160): every byte that waits at the start of the TICK (decision D12), so as many turns as there are
bytes (40_tick_gate.md R128). What is left unfinished then is TRANSPORT_UNDERRUN, which has no effect
(60_exceptions.md R243). -/
def drain (now : Time) (s : State) : State :=
  let s' := drainLoop now s.rxq.length s
  if unfinished s' then raise .transportUnderrun s' else s'

/-- RXB.SEEK as an operation of its own, whatever `sync_state` is (log entry 1). -/
def execRxbSeek (b : Byte) (s : State) : Host.Outcome State Fault Refusal := .next (rxbSeek b s)

/-- RXB.ACC as an operation of its own, whatever `sync_state` is (log entry 1). -/
def execRxbAcc (b : Byte) (now : Time) (s : State) : Host.Outcome State Fault Refusal := .next (rxbAcc b now s)

/-- COMPLETE as an operation of its own, on the cells as they stand (log entry 1). -/
def execComplete (now : Time) (s : State) : Host.Outcome State Fault Refusal := .next (complete now s)

/-- DRAIN as an operation of its own, outside a TICK (log entry 1). -/
def execDrain (now : Time) (s : State) : Host.Outcome State Fault Refusal := .next (drain now s)

end Sys2Proof.Machine
end

