-- ==== Sys2Proof/Machine/Events.lean ====
section
/-! DEFINITION. The events of the host (RESET, SETUP, TICK) and of the transport (RXARRIVE). -/

namespace Sys2Proof.Machine

/-- The transport's queue across a RESET: the spec does not say whether waiting bytes are kept or flushed
(70_reset_and_hazards.md R272); a free choice, of which nothing is left when none waits (log entry 13). -/
def queueAtReset (s : State) : List Byte :=
  match s.rxq with
  | [] => []
  | b :: q => if Config.rxqKept s.freeCount then b :: q else []

/-- RESET's effect (70_reset_and_hazards.md R270 to R273): S1 to S13 but `buf`, which is not written; the two
constructor arguments; the two logs start empty. -/
def construct (d : ℕ+) (interval : Time) (s : State) : State :=
  { s with
    tickCounter := 0, lastRequestTs := 0, syncState := .seekingHeader, hdrIdx := 0, bufLen := 0,
    lastSeenUid := s.cfg.uidReset, lastSeenTs := 0, armed := false, hdrMismatchCnt := 0, bccFailCnt := 0,
    linkUp := false, inTick := false,
    cfg := { s.cfg with tickDivider := d, reqIntervalMs := interval },
    rxq := queueAtReset s, txlog := [], evlog := [], result := .none, freeCount := s.freeCount + 1 }

/-- The body of a TICK that is not refused (40_tick_gate.md R121). A skipped TICK counts and does nothing else, not
even with `now` (R126); a processed one takes the clock sample, runs SCHED, then DRAIN. -/
def tickBody (now : Time) (s : State) : State :=
  let (pass, s) := gate { s with inTick := true }
  let s := if pass then drain now (sched now { s with clock := now }) else s
  { s with inTick := false }

/-- RESET (70_reset_and_hazards.md R270): refused inside a TICK (40_tick_gate.md R123) and on a zero divider (U3). Which
refusal a RESET with a zero divider inside a TICK meets, no rule says: `in_tick` is tested first (DESIGN CHOICE, safe: log
entry 26). -/
def execReset (tickDivider : Nat) (interval : Time) (s : State) : Host.Outcome State Fault Refusal :=
  if s.inTick then .refused .reentrant
  else if h : 0 < tickDivider then .next (construct ⟨tickDivider, h⟩ interval s)
  else .refused .badConfig

/-- SETUP (40_tick_gate.md R120): `link_up`; refused inside a TICK (R123). It does not touch `rxq` (20_memory.md
R69). -/
def execSetup (s : State) : Host.Outcome State Fault Refusal :=
  if s.inTick then .refused .reentrant else .next { s with linkUp := true }

/-- TICK (40_tick_gate.md R121): the two refusals (R122, R123), tested before GATE (60_exceptions.md R248 (f)), then
the body. -/
def execTick (now : Time) (s : State) : Host.Outcome State Fault Refusal :=
  if !s.linkUp then .refused .notSetUp
  else if s.inTick then .refused .reentrant
  else .next (tickBody now s)

/-- RXARRIVE (20_memory.md R63): one byte joins the receive queue; no state of the CORE is written. -/
def execRxArrive (b : Byte) (s : State) : Host.Outcome State Fault Refusal := .next (rxPush s b)

end Sys2Proof.Machine
end

