-- ==== Sys2Proof/Machine/Wire.lean ====
section
/-! DEFINITION. The two wire frames (30_encoding.md R93, R97; log entry 16). -/

namespace Sys2Proof.Machine

/-- POLL.READ (30_encoding.md R93): the CORE's one outbound frame goes to the transport as one write request
(41_request_scheduler.md R142), tagged with the clock of the TICK last processed. -/
def execPollRead (s : State) : Host.Outcome State Fault Refusal := .next (txWrite s.clock s)

/-- RESP (30_encoding.md R97): the 26 bytes of one response frame of the instance arrive, in index order, as one
RXARRIVE each (R107); the synchronizer recognises them when a TICK drains them (R101). -/
def execResp (u : Uid) (p : Payload) (terminator : Byte) (s : State) : Host.Outcome State Fault Refusal :=
  .next (rxPushAll (respBytes s.cfg u p terminator) s)

end Sys2Proof.Machine
end

