-- ==== Sys2Proof/Machine/Dispatch.lean ====
section
/-! DEFINITION. One arm for each operation of 30_encoding.md R100. -/

namespace Sys2Proof.Machine

def exec (i : Instr) (s : State) : Host.Outcome State Fault Refusal :=
  match i with
  | .reset d interval => Sys2Proof.Machine.execReset d interval s
  | .setup => Sys2Proof.Machine.execSetup s
  | .tick now => Sys2Proof.Machine.execTick now s
  | .rxArrive b => Sys2Proof.Machine.execRxArrive b s
  | .gate => Sys2Proof.Machine.execGate s
  | .sched now => Sys2Proof.Machine.execSched now s
  | .drain now => Sys2Proof.Machine.execDrain now s
  | .rxbSeek b => Sys2Proof.Machine.execRxbSeek b s
  | .rxbAcc b now => Sys2Proof.Machine.execRxbAcc b now s
  | .complete now => Sys2Proof.Machine.execComplete now s
  | .bccChk f => Sys2Proof.Machine.execBccChk f s
  | .uidx f => Sys2Proof.Machine.execUidx f s
  | .debStore u t => Sys2Proof.Machine.execDebStore u t s
  | .debFire u => Sys2Proof.Machine.execDebFire u s
  | .pollRead => Sys2Proof.Machine.execPollRead s
  | .resp u p t => Sys2Proof.Machine.execResp u p t s

end Sys2Proof.Machine
end

