-- ==== Sys2Proof/Machine/Step.lean ====
section
/-! DEFINITION. One step of the machine: the oldest waiting operation is taken, decoded and carried out. -/

namespace Sys2Proof.Machine

/-- One step. With nothing waiting the CORE is idle and holds its state (60_exceptions.md R257,
70_reset_and_hazards.md R271); a packet that is no operation of the instance is refused by name (30_encoding.md
R104). -/
def step (s : State) : Host.Outcome State Fault Refusal :=
  match fetch s with
  | none => .next s
  | some (p, s') =>
    match decode s.cfg p with
    | .error e => .refused (.undecodable e)
    | .ok i => exec i s'

/-- The state whose next step carries out the operation of a table row: its packet waits before all others, and for the
row RESP the instance is one whose header the word shows (log entry 4). -/
def State.withFetchWord (s : State) (nbits w : Nat) : State :=
  { s with cfg := tableParams s.cfg nbits w, pending := tablePacket nbits w :: s.pending }

end Sys2Proof.Machine
end

