-- ==== Sys2Proof/Safety.lean ====
section
/-! DEFINITION. The terms claims use: runs of several operations, the invariants of the sequencing state and of the
machine, what the host may put into a script, and the spec's quantities written independently of the machine. -/

namespace Sys2Proof.Safety

open Sys2Proof.Machine

/-- Operations carried out one after the other, stopping at the first that is refused. -/
def execAll : List Instr → State → Host.Outcome State Fault Refusal
  | [], s => .next s
  | i :: is, s =>
    match exec i s with
    | .next t => execAll is t
    | .fault f => .fault f
    | .refused r => .refused r

/-- `HDR[k]`, written out (00_scope.md R9, R11). -/
def headerByte (c : Params) (k : Nat) : Byte := [0x02, 0x00, c.hdr2, c.hdr3].getD k 0

/-- `F[1] xor F[2] xor … xor F[23]` (30_encoding.md R98 (c)). -/
def xorOfBody (f : Frame) : Byte := ((List.range 23).map fun k => f.toList.getD (k + 1) 0).foldl (· ^^^ ·) 0

/-- `(now − since) mod 2^32` on the numbers of the two samples (00_scope.md R15). -/
def elapsedMs (now since : Time) : Nat := (now.toNat + 2 ^ 32 - since.toNat) % 2 ^ 32

/-- The 26 cells of BUF as one value, read one by one. -/
def cells (s : State) : Frame := Vector.ofFn fun k => Memory.read s.buf k.val

/-- The UID field of a frame, bytes 4 to 7 (30_encoding.md R99). -/
def uidOf (f : Frame) : Uid := ⟨f[4], f[5], f[6], f[7]⟩

/-- A 26-byte run is accepted by the checksum (30_encoding.md R98 (c)). -/
def ChecksumHolds (f : Frame) : Prop := f[24] = xorOfBody f

/-- A read `(u, t)` opens a new candidate: another UID, or the window expired (45_debounce.md R217). -/
def OpensCandidate (u : Uid) (t : Time) (s : State) : Prop :=
  u ≠ s.lastSeenUid ∨ s.cfg.debounceWindowMs.toNat < elapsedMs t s.lastSeenTs

/-- Whether the TICK that comes next is processed (40_tick_gate.md R124). -/
def NextTickProcessed (s : State) : Prop := (s.tickCounter + 1) % (s.cfg.tickDivider : Nat) = 0

/-- The queue has room for `n` more bytes (20_memory.md R68). -/
def HasRoom (s : State) (n : Nat) : Prop := ∀ d, s.cfg.rxFifoDepth = some d → s.rxq.length + n ≤ d

/-- Set up, no TICK running, nothing waiting in the queue, no header match in progress, every TICK processed, and room
in the queue for one response frame. -/
structure Ready (s : State) : Prop where
  linkUp : s.linkUp = true
  inTick : s.inTick = false
  rxq : s.rxq = []
  seeking : s.syncState = .seekingHeader
  hdrIdx : s.hdrIdx = 0
  divider : (s.cfg.tickDivider : Nat) = 1
  room : HasRoom s 26
  buf : Memory.wf s.buf = true

/-- The invariant of the sequencing state (10_state.md R33), as far as one state can show it. -/
def SyncInv (s : State) : Prop :=
  Memory.wf s.buf = true ∧
    ((s.syncState = .seekingHeader ∧ s.bufLen = 0) ∨
      (s.syncState = .accumulating ∧ s.hdrIdx = 0 ∧ 4 ≤ s.bufLen.val ∧
        ∀ k, k < 4 → Memory.read s.buf k = headerByte s.cfg k))

/-- The per-byte operations are carried out in the state that selects them (10_state.md R27, 30_encoding.md R101). -/
def Selected (i : Instr) (s : State) : Prop :=
  match i with
  | .rxbSeek _ => s.syncState = .seekingHeader
  | .rxbAcc _ _ => s.syncState = .accumulating
  | _ => True

/-- The operations that come from outside the CORE: the host's events (10_state.md R41) and the transport's
(20_memory.md R63). -/
def isOutside : Instr → Bool
  | .reset _ _ => true
  | .setup => true
  | .tick _ => true
  | .rxArrive _ => true
  | .resp _ _ _ => true
  | _ => false

/-- Every waiting packet is an operation from outside the CORE, or none at all. -/
def HostScript (s : State) : Prop := ∀ p ∈ s.pending, ∀ i, decode s.cfg p = .ok i → isOutside i = true

/-- What holds between any two steps, whatever is issued: BUF in canonical form, no TICK running (20_memory.md R76), the
queue within its depth, and no write request but the poll frame (30_encoding.md R103). -/
structure MachineInv (s : State) : Prop where
  buf : Memory.wf s.buf = true
  inTick : s.inTick = false
  depth : ∀ d, s.cfg.rxFifoDepth = some d → s.rxq.length ≤ d
  polls : ∀ r ∈ s.txlog, r.frame = pollFrame

/-- Neighbouring write requests are more than the interval apart, and the last one is the one the timestamp records
(41_request_scheduler.md R145). -/
def PollsSpaced (s : State) : Prop :=
  (∀ xs a b ys, s.txlog = xs ++ a :: b :: ys → s.cfg.reqIntervalMs.toNat < elapsedMs b.now a.now) ∧
    ∀ xs a, s.txlog = xs ++ [a] → a.now = s.lastRequestTs

/-- The state without the flag `armed` and the diagnostic counters, which no rule reads (10_state.md R34, R38). -/
def withoutFlags (s : State) : State := { s with armed := false, hdrMismatchCnt := 0, bccFailCnt := 0 }

/-- The state with both logs empty (10_state.md R44). -/
def withoutLogs (s : State) : State := { s with txlog := [], evlog := [] }

/-- The state `t` with its log entries behind those of `a`. -/
def afterLogs (a t : State) : State := { t with txlog := a.txlog ++ t.txlog, evlog := a.evlog ++ t.evlog }

/-- An outcome with its next state, if there is one, changed by `f`. -/
def mapNext (f : State → State) : Host.Outcome State Fault Refusal → Host.Outcome State Fault Refusal
  | .next t => .next (f t)
  | .fault r => .fault r
  | .refused r => .refused r

/-- The state of the same machine with `DIAG` absent (10_state.md R38). -/
def withoutDiag (s : State) : State :=
  { s with hdrMismatchCnt := 0, bccFailCnt := 0, cfg := { s.cfg with diag := false } }

/-- Two outcomes agree up to a projection of their next states. -/
def SameUpTo (π : State → State) : Host.Outcome State Fault Refusal → Host.Outcome State Fault Refusal → Prop
  | .next t, .next t' => π t = π t'
  | .refused r, .refused r' => r = r'
  | .fault f, .fault f' => f = f'
  | _, _ => False

/-- The rows of 30_encoding.md R100. -/
def assignedCodes : List Nat := [0x00, 0x01, 0x02, 0x08, 0x10, 0x11, 0x12, 0x20, 0x21, 0x22, 0x23, 0x24, 0x30, 0x31]

end Sys2Proof.Safety
end

