-- ==== Sys2Proof/Certificates/Slice0/Obligations.lean ====
section
/-! DEFINITION. The statements for the provers; OBLIGATIONS.json lists them with the rule each one formalises. -/

open Sys2Proof Sys2Proof.Machine Sys2Proof.Safety

/-! Reset, set-up and the events of the host. -/

/-- 70_reset_and_hazards.md R271: the values after RESET, and that the CORE does nothing until an event is issued. The
empty queue and logs are 10_state.md R43's default and R272. -/
def Obligations.ResetStateHasResetValues : Prop :=
  State.reset.tickCounter = 0 ∧ State.reset.lastRequestTs = 0 ∧ State.reset.syncState = .seekingHeader ∧
    State.reset.hdrIdx = 0 ∧ State.reset.bufLen = 0 ∧ State.reset.lastSeenUid = ⟨0xFF, 0xFF, 0xFF, 0xFF⟩ ∧
    State.reset.lastSeenTs = 0 ∧ State.reset.armed = false ∧ State.reset.hdrMismatchCnt = 0 ∧
    State.reset.bccFailCnt = 0 ∧ State.reset.linkUp = false ∧ State.reset.inTick = false ∧
    State.reset.rxq = [] ∧ State.reset.txlog = [] ∧ State.reset.evlog = [] ∧ step State.reset = .next State.reset

/-- 70_reset_and_hazards.md R270: RESET constructs an instance with the two arguments, in the reset state; `buf` is not
written; nothing is emitted; a zero divider is refused. That RESET empties both logs is log entry 21 (deduced from R272 and
R273), and that it leaves the field `clock` is the model's choice (log entry 10). -/
def Obligations.ResetConstructsInstance : Prop :=
  (∀ (s : State) (interval : Time), s.inTick = false → exec (.reset 0 interval) s = .refused .badConfig) ∧
    ∀ (s : State) (d : Nat) (interval : Time), s.inTick = false → 0 < d →
      ∃ t, exec (.reset d interval) s = .next t ∧
        t.tickCounter = 0 ∧ t.lastRequestTs = 0 ∧ t.syncState = .seekingHeader ∧ t.hdrIdx = 0 ∧ t.bufLen = 0 ∧
        t.buf = s.buf ∧ t.lastSeenUid = s.cfg.uidReset ∧ t.lastSeenTs = 0 ∧ t.armed = false ∧
        t.hdrMismatchCnt = 0 ∧ t.bccFailCnt = 0 ∧ t.linkUp = false ∧ t.inTick = false ∧
        (t.cfg.tickDivider : Nat) = d ∧ t.cfg.reqIntervalMs = interval ∧
        t.cfg.debounceWindowMs = s.cfg.debounceWindowMs ∧ t.cfg.hdr2 = s.cfg.hdr2 ∧ t.cfg.hdr3 = s.cfg.hdr3 ∧
        t.cfg.rxFifoDepth = s.cfg.rxFifoDepth ∧ t.cfg.uidReset = s.cfg.uidReset ∧ t.cfg.diag = s.cfg.diag ∧
        t.txlog = [] ∧ t.evlog = [] ∧ t.clock = s.clock ∧ t.pending = s.pending

/-- 70_reset_and_hazards.md R272 as log entry 13 reads it: bytes waiting at a RESET are kept or flushed, all or none. The
choice between the two is free. -/
def Obligations.ResetKeepsOrFlushesQueue : Prop :=
  ∀ (s : State) (d : Nat) (interval : Time), s.inTick = false → 0 < d →
    ∃ t, exec (.reset d interval) s = .next t ∧ (t.rxq = s.rxq ∨ t.rxq = [])

/-- 40_tick_gate.md R120: SETUP writes `link_up` and nothing else; a second one changes nothing. -/
def Obligations.SetupOnlyBringsLinkUp : Prop :=
  ∀ s : State, s.inTick = false →
    exec .setup s = .next { s with linkUp := true } ∧
      exec .setup { s with linkUp := true } = .next { s with linkUp := true }

/-- 40_tick_gate.md R122 and R123: a TICK before SETUP is refused, and so is any host event inside a TICK. A RESET inside a
TICK whose divider is 0 is refused as well; no rule says under which of the two names (see `ZeroDividerInsideTick`). -/
def Obligations.HostEventsRefusedOutOfTurn : Prop :=
  (∀ (s : State) (now : Time), s.linkUp = false → exec (.tick now) s = .refused .notSetUp) ∧
    (∀ (s : State) (now : Time), s.linkUp = true → s.inTick = true → exec (.tick now) s = .refused .reentrant) ∧
    (∀ s : State, s.inTick = true → exec .setup s = .refused .reentrant) ∧
    (∀ (s : State) (d : Nat) (interval : Time), s.inTick = true → 0 < d →
      exec (.reset d interval) s = .refused .reentrant) ∧
    ∀ (s : State) (interval : Time), s.inTick = true →
      ∃ r, exec (.reset 0 interval) s = .refused r ∧ (r = .reentrant ∨ r = .badConfig)

/-- The model's choice (log entry 26): a RESET with a zero divider inside a TICK, which 60_exceptions.md R245 (b) and (c)
both refuse without an order between them, is refused as REENTRANT. -/
def Obligations.ZeroDividerInsideTick : Prop :=
  ∀ (s : State) (interval : Time), s.inTick = true → exec (.reset 0 interval) s = .refused .reentrant

/-- 60_exceptions.md R244 and R245: only RESET, SETUP and TICK are ever refused, and only for the three reasons; every
other operation has a next state in every state. -/
def Obligations.OnlyHostEventsAreRefused : Prop :=
  ∀ (i : Instr) (s : State),
    (∃ t, exec i s = .next t) ∨
      (exec i s = .refused .notSetUp ∧ s.linkUp = false ∧ ∃ now, i = .tick now) ∨
      (exec i s = .refused .reentrant ∧ s.inTick = true ∧
        ((∃ now, i = .tick now) ∨ i = .setup ∨ ∃ d interval, i = .reset d interval)) ∨
      (exec i s = .refused .badConfig ∧ ∃ interval, i = .reset 0 interval)

/-! The TICK and its rate divider. -/

/-- 40_tick_gate.md R126: a skipped TICK changes `tick_counter` and nothing else, whatever its sample. -/
def Obligations.SkippedTickOnlyCounts : Prop :=
  ∀ (s : State) (now : Time), s.linkUp = true → s.inTick = false → ¬ NextTickProcessed s →
    exec (.tick now) s = .next { s with tickCounter := s.tickCounter + 1 }

/-- 40_tick_gate.md R121 and R129: a processed TICK is GATE, then SCHED, then DRAIN, each with the one sample of the TICK.
(GATE by itself leaves its answer in `result`, log entry 11, and a processed TICK takes its sample into `clock`, log entry
10.) -/
def Obligations.ProcessedTickRunsGateSchedDrain : Prop :=
  ∀ (s : State) (now : Time), s.linkUp = true → s.inTick = false → NextTickProcessed s →
    ∃ s₁ s₂ s₃, exec .gate s = .next s₁ ∧ s₁.result = .gate true ∧
      exec (.sched now) { s₁ with result := s.result, clock := now } = .next s₂ ∧
      exec (.drain now) s₂ = .next s₃ ∧ exec (.tick now) s = .next s₃ ∧ s₃.rxq = []

/-- 40_tick_gate.md R124: the increment comes first and the test reads the new value. The answer is in the model's own
field `result` (log entry 11). -/
def Obligations.GateCountsThenTests : Prop :=
  ∀ s : State,
    exec .gate s =
      .next { s with
        tickCounter := s.tickCounter + 1
        result := .gate (decide ((s.tickCounter + 1) % (s.cfg.tickDivider : Nat) = 0)) }

/-- 40_tick_gate.md R125 (b): counting TICKs from 1 after RESET, exactly those whose number the divider divides are
processed; until the first of them nothing but the counter changes. -/
def Obligations.EveryNthTickIsProcessed : Prop :=
  ∀ (s : State) (samples : List Time), s.linkUp = true → s.inTick = false → s.tickCounter = 0 →
    ∃ t, execAll (samples.map .tick) s = .next t ∧ t.tickCounter = samples.length ∧ t.linkUp = true ∧
      t.inTick = false ∧ t.cfg = s.cfg ∧
      (NextTickProcessed t ↔ (s.cfg.tickDivider : Nat) ∣ samples.length + 1) ∧
      (samples.length < (s.cfg.tickDivider : Nat) → t = { s with tickCounter := samples.length })

/-- 40_tick_gate.md R127: a TICK makes at most one write request and any number of presence events, all with its own
sample; every event takes a whole frame of the bytes that waited or were parked. -/
def Obligations.TickOutputsAreBounded : Prop :=
  ∀ (s t : State) (now : Time), exec (.tick now) s = .next t →
    ∃ ws es, t.txlog = s.txlog ++ ws ∧ ws.length ≤ 1 ∧ (∀ w ∈ ws, w.now = now ∧ w.frame = pollFrame) ∧
      t.evlog = s.evlog ++ es ∧ (∀ e ∈ es, e.now = now) ∧ 26 * es.length ≤ s.rxq.length + 25

/-! The request scheduler and the transmit side. -/

/-- 41_request_scheduler.md R140 and R141: SCHED writes the poll frame if, and only if, strictly more than the interval
has passed, and then sets its timestamp; the elapsed time is modular. -/
def Obligations.SchedWritesExactlyWhenDue : Prop :=
  ∀ (s : State) (now : Time),
    (s.cfg.reqIntervalMs.toNat < elapsedMs now s.lastRequestTs →
      ∃ delivered, exec (.sched now) s =
        .next { s with
          lastRequestTs := now
          txlog := s.txlog ++ [⟨now, pollFrame, delivered⟩]
          freeCount := s.freeCount + 1 }) ∧
      (elapsedMs now s.lastRequestTs ≤ s.cfg.reqIntervalMs.toNat → exec (.sched now) s = .next s)

/-- 41_request_scheduler.md R146: with the largest interval no write ever happens; with interval 0 one happens exactly
when the sample differs from the last one written at. -/
def Obligations.SchedExtremeIntervals : Prop :=
  (∀ (s : State) (now : Time), s.cfg.reqIntervalMs = 0xFFFFFFFF → exec (.sched now) s = .next s) ∧
    (∀ (s : State) (now : Time), s.cfg.reqIntervalMs = 0 → now ≠ s.lastRequestTs →
      ∃ t, exec (.sched now) s = .next t ∧ t.txlog.length = s.txlog.length + 1 ∧ exec (.sched now) t = .next t) ∧
    ∀ (s : State) (now : Time), s.cfg.reqIntervalMs = 0 → now = s.lastRequestTs → exec (.sched now) s = .next s

/-- 41_request_scheduler.md R145: whatever operations are issued (but the bare frame POLL.READ, which goes round SCHED),
two neighbouring write requests are more than the interval apart. -/
def Obligations.PollsStaySpaced : Prop :=
  ∀ (i : Instr) (s t : State), PollsSpaced s → i ≠ .pollRead → exec i s = .next t → PollsSpaced t

/-- The invariant of `PollsStaySpaced` holds at reset. -/
def Obligations.PollsSpacedAtReset : Prop := PollsSpaced State.reset

/-- 30_encoding.md R95 (and 20_memory.md R74): the poll frame, byte by byte, and its checksum. -/
def Obligations.PollFrameIsFixed : Prop :=
  pollFrame.toList =
      [0x02, 0x00, 0x0A, 0x20, 0x01, 0x01, 0x04, 0xFF, 0xFF, 0xFF, 0xFF, 0xFF, 0xFF, 0x2E, 0x03] ∧
    bcc pollFrame.toList = 0x2E ∧ pollFrame[13] = 0x2E

/-- 30_encoding.md R93, 41_request_scheduler.md R142, as log entry 16 reads them: POLL.READ by itself is one write request
of the poll frame, tagged with the clock, and writes no state of the CORE. -/
def Obligations.PollReadIsOneWriteRequest : Prop :=
  ∀ s : State, ∃ delivered, exec .pollRead s =
    .next { s with txlog := s.txlog ++ [⟨s.clock, pollFrame, delivered⟩], freeCount := s.freeCount + 1 }

/-- 20_memory.md R66 and R67, decision D18: while every request is a poll frame, the bytes the transport has enqueued
are whole poll frames, one for each request it delivered and none for one it dropped. -/
def Obligations.TransmitStreamIsWholePolls : Prop :=
  ∀ s : State, MachineInv s →
    transmitStream s = (List.replicate (s.txlog.filter fun r => r.delivered).length pollFrame.toList).flatten

/-! The receive queue. -/

/-- 20_memory.md R63 and R68, decision D20: an arriving byte joins the back of the queue; on a full queue any byte
sequence the queue has room for takes its place. Nothing else of the machine is written but the model's count of free
values (log entries 12, 14). -/
def Obligations.ArrivingByteJoinsQueue : Prop :=
  (∀ (s : State) (b : Byte), HasRoom s 1 → exec (.rxArrive b) s = .next { s with rxq := s.rxq ++ [b] }) ∧
    ∀ (s : State) (b : Byte) (d : Nat), s.cfg.rxFifoDepth = some d → d ≤ s.rxq.length →
      ∃ q, q.length ≤ d ∧ exec (.rxArrive b) s = .next { s with rxq := q, freeCount := s.freeCount + 1 }

/-- 30_encoding.md R97 and R107: a RESP is the arrival of 26 bytes in index order, header, UID, payload, checksum,
terminator; with too little room the queue still ends within its depth. -/
def Obligations.ResponseArrivesByteByByte : Prop :=
  ∀ (s : State) (u : Uid) (p : Payload) (e : Byte),
    (HasRoom s 26 → ∃ f : Frame, exec (.resp u p e) s = .next { s with rxq := s.rxq ++ f.toList } ∧
      (∀ k (_ : k < 4), f[k] = headerByte s.cfg k) ∧ uidOf f = u ∧ (∀ k (_ : k < 16), f[8 + k] = p[k]) ∧
      ChecksumHolds f ∧ f[25] = e) ∧
    ∃ q n, exec (.resp u p e) s = .next { s with rxq := q, freeCount := n } ∧
      ∀ d, s.cfg.rxFifoDepth = some d → q.length ≤ d

/-! The frame synchronizer. -/

/-- 42_frame_sync.md R160: DRAIN is its loop. With nothing waiting it changes nothing; else the oldest byte is taken off
the queue, the per-byte operation that `sync_state` selects runs on it, and the loop goes on. -/
def Obligations.DrainIsItsLoop : Prop :=
  (∀ (s : State) (now : Time), s.rxq = [] → exec (.drain now) s = .next s) ∧
    ∀ (s : State) (now : Time) (b : Byte) (q : List Byte), s.rxq = b :: q →
      ∃ s' t, exec (if s.syncState = .seekingHeader then .rxbSeek b else .rxbAcc b now) { s with rxq := q } = .next s' ∧
        s'.rxq = q ∧ exec (.drain now) s' = .next t ∧ exec (.drain now) s = .next t ∧ t.rxq = []

/-- 40_tick_gate.md R129: DRAIN touches S3 to S11 only (and the queue and the event log), SCHED the timestamp only (and the
request log); so the order of the two cannot be seen in the state. -/
def Obligations.DrainAndSchedAreIndependent : Prop :=
  (∀ (s : State) (now : Time), ∃ t, exec (.drain now) s = .next t ∧
      t = { s with
        syncState := t.syncState, hdrIdx := t.hdrIdx, buf := t.buf, bufLen := t.bufLen, lastSeenUid := t.lastSeenUid,
        lastSeenTs := t.lastSeenTs, armed := t.armed, hdrMismatchCnt := t.hdrMismatchCnt, bccFailCnt := t.bccFailCnt,
        rxq := [], evlog := t.evlog }) ∧
    ∀ (s : State) (now : Time), ∃ t,
      execAll [.sched now, .drain now] s = .next t ∧ execAll [.drain now, .sched now] s = .next t

/-- 42_frame_sync.md R162, R164, R165, R166: the header detector. -/
def Obligations.HeaderDetectorStep : Prop :=
  ∀ (s : State) (b : Byte),
    (b = headerByte s.cfg s.hdrIdx.val → s.hdrIdx.val < 3 →
      exec (.rxbSeek b) s = .next { s with hdrIdx := s.hdrIdx + 1 }) ∧
    (b = headerByte s.cfg s.hdrIdx.val → s.hdrIdx = 3 → Memory.wf s.buf = true →
      ∃ t, exec (.rxbSeek b) s = .next t ∧
        t = { s with buf := t.buf, bufLen := 4, hdrIdx := 0, syncState := .accumulating } ∧
        ∀ k, Memory.read t.buf k = if k < 4 then headerByte s.cfg k else Memory.read s.buf k) ∧
    (b ≠ headerByte s.cfg s.hdrIdx.val →
      exec (.rxbSeek b) s =
        .next { s with
          hdrIdx := 0
          hdrMismatchCnt := if s.cfg.diag then s.hdrMismatchCnt + 1 else s.hdrMismatchCnt })

/-- 42_frame_sync.md R163, R168: the accumulator stores the byte whatever its value; the 26th runs COMPLETE. -/
def Obligations.AccumulatorStep : Prop :=
  ∀ (s : State) (b : Byte) (now : Time), Memory.wf s.buf = true →
    (s.bufLen.val < 25 →
      ∃ t, exec (.rxbAcc b now) s = .next t ∧ t = { s with buf := t.buf, bufLen := s.bufLen + 1 } ∧
        ∀ k, Memory.read t.buf k = if k = s.bufLen.val then b else Memory.read s.buf k) ∧
    (s.bufLen = 25 →
      ∃ m t, (∀ k, Memory.read m k = if k = 25 then b else Memory.read s.buf k) ∧ Memory.wf m = true ∧
        exec (.complete now) { s with buf := m } = .next t ∧ exec (.rxbAcc b now) s = .next t)

/-- 42_frame_sync.md R170, R171 with 45_debounce.md R231: COMPLETE takes the 26 cells as a value and resets the
synchronizer in every case; a wrong checksum drops the frame; a right one runs exactly one of DEB.STORE and DEB.FIRE on
the UID, as the table of R231 says. -/
def Obligations.CompleteJudgesTheFrame : Prop :=
  ∀ (s : State) (now : Time),
    (¬ ChecksumHolds (cells s) →
      exec (.complete now) s =
        .next { s with
          syncState := .seekingHeader, hdrIdx := 0, bufLen := 0
          bccFailCnt := if s.cfg.diag then s.bccFailCnt + 1 else s.bccFailCnt }) ∧
    (ChecksumHolds (cells s) → OpensCandidate (uidOf (cells s)) now s →
      exec (.complete now) s =
        .next { s with
          syncState := .seekingHeader, hdrIdx := 0, bufLen := 0
          lastSeenUid := uidOf (cells s), lastSeenTs := now, armed := true }) ∧
    (ChecksumHolds (cells s) → ¬ OpensCandidate (uidOf (cells s)) now s →
      exec (.complete now) s =
        .next { s with
          syncState := .seekingHeader, hdrIdx := 0, bufLen := 0
          lastSeenUid := ⟨0, 0, 0, 0⟩, armed := false, evlog := s.evlog ++ [⟨uidOf (cells s), now⟩] })

/-- 42_frame_sync.md R165, R168, R169, R175: from the start of a search, the header and fewer than 22 further bytes of any
value leave the CORE accumulating, with the header in cells 0 to 3 and the further bytes behind it, in order. -/
def Obligations.HeaderThenBodyIsParked : Prop :=
  ∀ (s : State) (now : Time) (body : List Byte), Memory.wf s.buf = true → s.syncState = .seekingHeader → s.hdrIdx = 0 →
    body.length < 22 → s.rxq = [headerByte s.cfg 0, headerByte s.cfg 1, headerByte s.cfg 2, headerByte s.cfg 3] ++ body →
    ∃ t, exec (.drain now) s = .next t ∧
      t = { s with rxq := [], syncState := .accumulating, bufLen := t.bufLen, buf := t.buf } ∧
      t.bufLen.val = 4 + body.length ∧ (∀ k, k < 4 → Memory.read t.buf k = headerByte s.cfg k) ∧
      (∀ k (h : k < body.length), Memory.read t.buf (4 + k) = body[k]) ∧
      ∀ k, 4 + body.length ≤ k → Memory.read t.buf k = Memory.read s.buf k

/-- 30_encoding.md R98 (and 60_exceptions.md R242): a run of 26 bytes that starts with the header at the start of a search
is judged by the checksum alone, its terminator and payload whatever they are; an accepted one is one read by the
debouncer, a rejected one leaves the debouncer and the event log as they were. -/
def Obligations.HeaderedRunIsJudgedByChecksum : Prop :=
  ∀ (s : State) (now : Time) (f : Frame), Memory.wf s.buf = true → s.syncState = .seekingHeader → s.hdrIdx = 0 →
    (∀ k (_ : k < 4), f[k] = headerByte s.cfg k) → s.rxq = f.toList →
    ∃ t, exec (.drain now) s = .next t ∧
      (∀ k (_ : k < 26), Memory.read t.buf k = f[k]) ∧
      (¬ ChecksumHolds f →
        t = { s with
          rxq := [], buf := t.buf, bufLen := 0
          bccFailCnt := if s.cfg.diag then s.bccFailCnt + 1 else s.bccFailCnt }) ∧
      (ChecksumHolds f → OpensCandidate (uidOf f) now s →
        t = { s with
          rxq := [], buf := t.buf, bufLen := 0, lastSeenUid := uidOf f, lastSeenTs := now, armed := true }) ∧
      (ChecksumHolds f → ¬ OpensCandidate (uidOf f) now s →
        t = { s with
          rxq := [], buf := t.buf, bufLen := 0, lastSeenUid := ⟨0, 0, 0, 0⟩, armed := false
          evlog := s.evlog ++ [⟨uidOf f, now⟩] })

/-- 42_frame_sync.md R167 (a): bytes other than STX before a header are discarded one by one, each counted where the
counters exist, and what follows is treated as if they had not come. -/
def Obligations.NoiseBeforeHeaderIsDiscarded : Prop :=
  ∀ (s : State) (now : Time) (noise rest : List Byte), s.syncState = .seekingHeader → s.hdrIdx = 0 →
    (∀ b ∈ noise, b ≠ 0x02) → s.rxq = noise ++ rest →
    ∃ t, exec (.drain now) s = .next t ∧
      exec (.drain now)
        { s with
          rxq := rest
          hdrMismatchCnt := if s.cfg.diag then s.hdrMismatchCnt + noise.length else s.hdrMismatchCnt } = .next t

/-- 42_frame_sync.md R167 (b): a stray STX right before a header loses the header, whatever HDR2 and HDR3 are: the five
bytes leave the synchronizer searching, with nothing but the header index and the mismatch count changed. Where neither of
the two is an STX itself, the index is 0 again and four mismatches are counted. -/
def Obligations.StrayStxLosesHeader : Prop :=
  ∀ (s : State) (now : Time), s.syncState = .seekingHeader → s.hdrIdx = 0 →
    s.rxq = 0x02 :: [headerByte s.cfg 0, headerByte s.cfg 1, headerByte s.cfg 2, headerByte s.cfg 3] →
    ∃ t, exec (.drain now) s = .next t ∧
      t = { s with rxq := [], hdrIdx := t.hdrIdx, hdrMismatchCnt := t.hdrMismatchCnt } ∧
      (s.cfg.hdr2 ≠ 0x02 → s.cfg.hdr3 ≠ 0x02 →
        t.hdrIdx = 0 ∧ t.hdrMismatchCnt = if s.cfg.diag then s.hdrMismatchCnt + 4 else s.hdrMismatchCnt)

/-- 42_frame_sync.md R172 (and 10_state.md R32): however the received bytes are split over drains, and whatever the
samples, the synchronizer ends in the same state. -/
def Obligations.TickBoundariesDoNotMatter : Prop :=
  ∀ (s : State) (first second : List Byte) (n n₁ n₂ : Time),
    ∃ t t₁ t₂, exec (.drain n) { s with rxq := first ++ second } = .next t ∧
      exec (.drain n₁) { s with rxq := first } = .next t₁ ∧
      exec (.drain n₂) { t₁ with rxq := second } = .next t₂ ∧
      t₂.syncState = t.syncState ∧ t₂.hdrIdx = t.hdrIdx ∧ t₂.buf = t.buf ∧ t₂.bufLen = t.bufLen ∧
      t₂.hdrMismatchCnt = t.hdrMismatchCnt ∧ t₂.bccFailCnt = t.bccFailCnt

/-- 42_frame_sync.md R173 (and 60_exceptions.md R243): while no byte comes, no number of TICKs and no amount of time
changes the synchronizer, the debouncer or the event log. -/
def Obligations.StalledFrameNeverTimesOut : Prop :=
  ∀ (s : State) (samples : List Time), s.linkUp = true → s.inTick = false → s.rxq = [] →
    ∃ t, execAll (samples.map .tick) s = .next t ∧ t.rxq = [] ∧ t.syncState = s.syncState ∧ t.hdrIdx = s.hdrIdx ∧
      t.buf = s.buf ∧ t.bufLen = s.bufLen ∧ t.lastSeenUid = s.lastSeenUid ∧ t.lastSeenTs = s.lastSeenTs ∧
      t.armed = s.armed ∧ t.hdrMismatchCnt = s.hdrMismatchCnt ∧ t.bccFailCnt = s.bccFailCnt ∧ t.evlog = s.evlog

/-- 42_frame_sync.md R176: from any legal synchronizer state, within 25 further bytes of any value, the start of a search is
passed. -/
def Obligations.SynchronizerRecovers : Prop :=
  ∀ (s : State) (now : Time) (bytes : List Byte), SyncInv s → bytes.length = 25 →
    ∃ k t, k ≤ 25 ∧ exec (.drain now) { s with rxq := bytes.take k } = .next t ∧
      t.syncState = .seekingHeader ∧ t.hdrIdx = 0

/-! The checksum and the UID. -/

/-- 43_checksum.md R192: BCC.CHK answers whether the XOR of bytes 1 to 23 equals byte 24, and writes no state of the CORE.
The answer is in the model's own field `result` (log entry 11). -/
def Obligations.ChecksumIsXorOfBody : Prop :=
  ∀ (s : State) (f : Frame), exec (.bccChk f) s = .next { s with result := .bccChk (decide (xorOfBody f = f[24])) }

/-- 43_checksum.md R194: the order of the bytes inside the range does not matter. -/
def Obligations.ChecksumIgnoresOrder : Prop :=
  ∀ (s : State) (f g : Frame), f[24] = g[24] →
    ((f.toList.drop 1).take 23).Perm ((g.toList.drop 1).take 23) → exec (.bccChk f) s = exec (.bccChk g) s

/-- 43_checksum.md R195: one flipped bit among bytes 1 to 24 is caught; the same bit flipped in two of them is not; bytes 0
and 25 are not seen. -/
def Obligations.SingleBitFlipIsCaught : Prop :=
  ∀ (s : State) (f : Frame), ChecksumHolds f →
    (∀ (k j : Nat) (h : k < 26), 1 ≤ k → k ≤ 24 → j < 8 →
      exec (.bccChk (f.set k (f[k] ^^^ (1#8 <<< j)))) s = .next { s with result := .bccChk false }) ∧
    (∀ (k k' j : Nat) (h : k < 26) (h' : k' < 26), 1 ≤ k → k < k' → k' ≤ 24 → j < 8 →
      exec (.bccChk ((f.set k (f[k] ^^^ (1#8 <<< j))).set k' (f[k'] ^^^ (1#8 <<< j)))) s =
        .next { s with result := .bccChk true }) ∧
    ∀ b : Byte, exec (.bccChk (f.set 0 b)) s = .next { s with result := .bccChk true } ∧
      exec (.bccChk (f.set 25 b)) s = .next { s with result := .bccChk true }

/-- 44_uid_extract.md R205: UIDX answers bytes 4 to 7 of an accepted frame in frame order and writes no state of the CORE.
That it answers them for a frame BCC.CHK rejects as well, which R205 and R206 do not give it, is the model's choice (log
entry 27), and so is that the answer stands in the field `result` (log entry 11). -/
def Obligations.UidIsBytesFourToSeven : Prop :=
  ∀ (s : State) (f : Frame), exec (.uidx f) s = .next { s with result := .uidx ⟨f[4], f[5], f[6], f[7]⟩ }

/-! The debouncer. -/

/-- 45_debounce.md R218: DEB.STORE. -/
def Obligations.DebStoreMakesCandidate : Prop :=
  ∀ (s : State) (u : Uid) (t : Time),
    exec (.debStore u t) s = .next { s with lastSeenUid := u, lastSeenTs := t, armed := true }

/-- 45_debounce.md R219, R222: DEB.FIRE. It carries no sample; by log entry 10 the event is tagged with the clock. -/
def Obligations.DebFireEmitsPresence : Prop :=
  ∀ (s : State) (u : Uid),
    exec (.debFire u) s =
      .next { s with
        lastSeenUid := ⟨0x00, 0x00, 0x00, 0x00⟩, armed := false, evlog := s.evlog ++ [⟨u, s.clock⟩] }

/-- 30_encoding.md R98 with 45_debounce.md R231, through a TICK: a response frame that arrives and is drained by the next
TICK is one accepted read, with the UID of its bytes 4 to 7 and the sample of that TICK. -/
def Obligations.ResponseIsOneAcceptedRead : Prop :=
  ∀ (s : State) (u : Uid) (p : Payload) (e : Byte) (now : Time), Ready s →
    ∃ t, execAll [.resp u p e, .tick now] s = .next t ∧ Ready t ∧ t.cfg = s.cfg ∧
      t.hdrMismatchCnt = s.hdrMismatchCnt ∧ t.bccFailCnt = s.bccFailCnt ∧
      (OpensCandidate u now s →
        t.lastSeenUid = u ∧ t.lastSeenTs = now ∧ t.armed = true ∧ t.evlog = s.evlog) ∧
      (¬ OpensCandidate u now s →
        t.lastSeenUid = ⟨0, 0, 0, 0⟩ ∧ t.lastSeenTs = s.lastSeenTs ∧ t.armed = false ∧
          t.evlog = s.evlog ++ [⟨u, now⟩])

/-- 45_debounce.md R225 and R228: a card read over and over, each pair of reads within the window, is reported on exactly
every second read, whatever the gaps between the pairs. -/
def Obligations.EverySecondReadFires : Prop :=
  ∀ (s : State) (u : Uid) (p : Payload) (e : Byte) (pairs : List (Time × Time)), Ready s → u ≠ ⟨0, 0, 0, 0⟩ →
    u ≠ s.lastSeenUid → (∀ q ∈ pairs, elapsedMs q.2 q.1 ≤ s.cfg.debounceWindowMs.toNat) →
    ∃ t, execAll (pairs.flatMap fun q => [.resp u p e, .tick q.1, .resp u p e, .tick q.2]) s = .next t ∧
      t.evlog = s.evlog ++ pairs.map (fun q => ⟨u, q.2⟩)

/-- 45_debounce.md R225, the unpaired read: after a pair has fired, the next read of the same card opens a new candidate
and does not fire, even inside the window. -/
def Obligations.ThirdReadDoesNotRefire : Prop :=
  ∀ (s : State) (u : Uid) (p : Payload) (e : Byte) (t₁ t₂ t₃ : Time), Ready s → u ≠ ⟨0, 0, 0, 0⟩ →
    u ≠ s.lastSeenUid → elapsedMs t₂ t₁ ≤ s.cfg.debounceWindowMs.toNat →
    ∃ t, execAll [.resp u p e, .tick t₁, .resp u p e, .tick t₂, .resp u p e, .tick t₃] s = .next t ∧
      t.evlog = s.evlog ++ [⟨u, t₂⟩] ∧ t.lastSeenUid = u ∧ t.lastSeenTs = t₃ ∧ t.armed = true

/-- 45_debounce.md R229: two cards read in strict alternation are never reported, at any speed. -/
def Obligations.AlternatingCardsNeverFire : Prop :=
  ∀ (s : State) (u v : Uid) (p : Payload) (e : Byte) (pairs : List (Time × Time)), Ready s → u ≠ v →
    u ≠ s.lastSeenUid →
    ∃ t, execAll (pairs.flatMap fun q => [.resp u p e, .tick q.1, .resp v p e, .tick q.2]) s = .next t ∧
      t.evlog = s.evlog

/-- 45_debounce.md R226: with the sentinel as reference, one read of the all-zero UID fires inside the window of the old
timestamp, whatever `armed` says, and stores outside it; then a second one inside the window fires. -/
def Obligations.AllZeroUidFiresOnOneRead : Prop :=
  ∀ (s : State) (p : Payload) (e : Byte) (t₁ t₂ : Time), Ready s → s.lastSeenUid = ⟨0, 0, 0, 0⟩ →
    (elapsedMs t₁ s.lastSeenTs ≤ s.cfg.debounceWindowMs.toNat →
      ∃ t, execAll [.resp ⟨0, 0, 0, 0⟩ p e, .tick t₁] s = .next t ∧ t.evlog = s.evlog ++ [⟨⟨0, 0, 0, 0⟩, t₁⟩] ∧
        t.lastSeenTs = s.lastSeenTs) ∧
    (s.cfg.debounceWindowMs.toNat < elapsedMs t₁ s.lastSeenTs →
      ∃ t, execAll [.resp ⟨0, 0, 0, 0⟩ p e, .tick t₁] s = .next t ∧ t.evlog = s.evlog ∧ t.lastSeenTs = t₁ ∧
        t.armed = true ∧
        (elapsedMs t₂ t₁ ≤ s.cfg.debounceWindowMs.toNat →
          ∃ t', execAll [.resp ⟨0, 0, 0, 0⟩ p e, .tick t₂] t = .next t' ∧
            t'.evlog = s.evlog ++ [⟨⟨0, 0, 0, 0⟩, t₂⟩]))

/-- 45_debounce.md R227: the first read after RESET and SETUP fires at once exactly when its UID is the reset value of the
reference and its sample is within the window of 0. That RESET empties the event log is log entry 21 (deduced from
70_reset_and_hazards.md R272 and R273), and that it leaves an empty queue empty is the model's choice (log entry 13). -/
def Obligations.FirstReadAfterReset : Prop :=
  ∀ (s : State) (interval : Time) (u : Uid) (p : Payload) (e : Byte) (now : Time), s.inTick = false → s.rxq = [] →
    HasRoom s 26 → Memory.wf s.buf = true →
    ∃ t, execAll [.reset 1 interval, .setup, .resp u p e, .tick now] s = .next t ∧
      (u = s.cfg.uidReset ∧ now.toNat ≤ s.cfg.debounceWindowMs.toNat → t.evlog = [⟨u, now⟩]) ∧
      (¬ (u = s.cfg.uidReset ∧ now.toNat ≤ s.cfg.debounceWindowMs.toNat) → t.evlog = [] ∧ t.lastSeenUid = u ∧
        t.lastSeenTs = now ∧ t.armed = true)

/-! The whole machine. -/

/-- 10_state.md R33: every operation in the state that selects it keeps the invariant of the sequencing state. -/
def Obligations.OperationsKeepSyncInv : Prop :=
  ∀ (i : Instr) (s t : State), SyncInv s → Selected i s → exec i s = .next t → SyncInv t

/-- 10_state.md R33 and R41: while only operations from outside the CORE wait, every step keeps the invariant of the
sequencing state, and only such operations wait still. -/
def Obligations.StepKeepsSyncInv : Prop :=
  ∀ s t : State, SyncInv s → HostScript s → step s = .next t → SyncInv t ∧ HostScript t

/-- 10_state.md R33: the invariant of the sequencing state is true after RESET. -/
def Obligations.SyncInvAtReset : Prop := SyncInv State.reset ∧ HostScript State.reset

/-- 20_memory.md R68 and R76, 30_encoding.md R103: whatever waits, every step keeps BUF in canonical form, leaves no TICK
running, keeps the queue within its depth, and requests no write but the poll frame. -/
def Obligations.StepKeepsMachineInv : Prop :=
  ∀ s t : State, MachineInv s → step s = .next t → MachineInv t

/-- The invariant of `StepKeepsMachineInv` holds at reset. -/
def Obligations.MachineInvAtReset : Prop := MachineInv State.reset

/-- 10_state.md R36: only RESET writes a configuration constant, and only the two it carries. -/
def Obligations.ConfigurationIsReadOnly : Prop :=
  ∀ (i : Instr) (s t : State), exec i s = .next t →
    t.cfg = s.cfg ∨
      ∃ (d : ℕ+) (interval : Time), i = .reset d interval ∧
        t.cfg = { s.cfg with tickDivider := d, reqIntervalMs := interval }

/-- 60_exceptions.md R247, 40_tick_gate.md R127, 10_state.md R39: which operations can touch the outputs and `link_up`.
Presence events come only from DEB.FIRE and what runs it, write requests only from SCHED, POLL.READ and what runs them;
only SETUP sets `link_up`; only RESET empties a log or clears `link_up`. That RESET empties both logs is log entry 21
(deduced from 70_reset_and_hazards.md R272 and R273); that POLL.READ by itself is a write request is the model's choice (log
entry 16). -/
def Obligations.OutputsComeFromTheirOperations : Prop :=
  ∀ (i : Instr) (s t : State), exec i s = .next t →
    (match i with
      | .tick _ | .drain _ | .rxbAcc _ _ | .complete _ | .debFire _ => ∃ es, t.evlog = s.evlog ++ es
      | .reset _ _ => t.evlog = []
      | _ => t.evlog = s.evlog) ∧
    (match i with
      | .tick _ | .sched _ | .pollRead => ∃ ws, ws.length ≤ 1 ∧ t.txlog = s.txlog ++ ws
      | .reset _ _ => t.txlog = []
      | _ => t.txlog = s.txlog) ∧
    match i with
      | .setup => t.linkUp = true
      | .reset _ _ => t.linkUp = false
      | _ => t.linkUp = s.linkUp

/-- 10_state.md R34, R38, R44: no rule reads the flag `armed`, the diagnostic counters, `txlog` or `evlog`. Two states that
differ in `armed` and the counters alone run every operation alike, with the same two logs. What stands in the logs changes
nothing either: every operation does what it does on empty logs and puts its entries behind the old ones; RESET, which
starts new logs (log entry 21), does the same whatever they held. -/
def Obligations.RecordsAreNeverRead : Prop :=
  (∀ (i : Instr) (s : State), SameUpTo withoutFlags (exec i s) (exec i (withoutFlags s))) ∧
    (∀ (i : Instr) (s : State), (∀ d interval, i ≠ .reset d interval) →
      exec i s = mapNext (afterLogs s) (exec i (withoutLogs s))) ∧
    ∀ (s : State) (d : Nat) (interval : Time), exec (.reset d interval) s = exec (.reset d interval) (withoutLogs s)

/-- 10_state.md R38: a model built without the diagnostic counters runs every operation alike. -/
def Obligations.DiagnosticsChangeNothingElse : Prop :=
  ∀ (i : Instr) (s : State), SameUpTo withoutDiag (exec i s) (exec i (withoutDiag s))

/-! Decoding and the step. -/

/-- 30_encoding.md R100, R108: the packet of every well-formed operation decodes to it, with every operand at every value;
every term is well formed, RESET with a divider of any size (00_scope.md R10). How the arguments stand in a packet is the
model's choice (log entry 3). -/
def Obligations.DecodeInvertsEncode : Prop :=
  ∀ (c : Params) (i : Instr), wellFormed i = true → decode c (encode c i) = .ok i

/-- The model's choice (log entry 3): an operation has exactly one packet. What decodes to an operation is that operation's
encoding, and the operation is well formed. 30_encoding.md R100 and R108 give the codes and the wire frames. No rule lays
out the arguments of a code, and that a RESET whose divider has a leading zero byte is no operation is the model's as
well. -/
def Obligations.EncodeInvertsDecode : Prop :=
  ∀ (c : Params) (p : Packet) (i : Instr), decode c p = .ok i → wellFormed i = true ∧ encode c i = p

/-- 30_encoding.md R104: an operation code that is not listed is refused by name, whatever follows it. -/
def Obligations.UnassignedCodesAreRefused : Prop :=
  ∀ (s : State) (code : Byte) (args : List Byte) (rest : List Packet), code.toNat ∉ assignedCodes →
    s.pending = ⟨.opcode8, code :: args⟩ :: rest → step s = .refused (.undecodable (.unassignedCode code))

/-- 30_encoding.md R98 (b), (c): an inbound frame packet is read as an operation when, and only when, it has 26 bytes, the
instance's header and the right checksum; and the operation is then the RESP of the frame's own UID, payload and
terminator. -/
def Obligations.ResponsePacketsAreExactlyResponses : Prop :=
  ∀ (c : Params) (bytes : List Byte) (i : Instr),
    decode c ⟨.rf26, bytes⟩ = .ok i ↔
      ∃ (f : Frame) (p : Payload), f.toList = bytes ∧ (∀ k (_ : k < 4), f[k] = headerByte c k) ∧ ChecksumHolds f ∧
        (∀ k (_ : k < 16), p[k] = f[8 + k]) ∧ i = .resp (uidOf f) p f[25]

/-- 30_encoding.md R101 (with log entry 2): a step takes the oldest waiting packet, and carries out the operation it decodes
to on the state without that packet; with nothing waiting it leaves the state as it is; a packet that is no operation is
refused. -/
def Obligations.StepRunsTheDecodedOperation : Prop :=
  (∀ (s : State) (p : Packet) (rest : List Packet) (i : Instr), s.pending = p :: rest → decode s.cfg p = .ok i →
      step s = exec i { s with pending := rest }) ∧
    (∀ (s : State) (p : Packet) (rest : List Packet) (e : DecodeError), s.pending = p :: rest →
      decode s.cfg p = .error e → step s = .refused (.undecodable e)) ∧
    ∀ s : State, s.pending = [] → step s = .next s

/-- 30_encoding.md R93, R97, R100, 44_uid_extract.md R205: some packets written out byte by byte. How the arguments of a
code stand in its packet is the model's choice (log entry 3). The frame is frame A of
95_test_vectors.md, for an instance with its illustrative header bytes. -/
def Obligations.WrittenOutPacketsDecode : Prop :=
  ∀ c : Params, c.hdr2 = 0x15 → c.hdr3 = 0x00 →
    decode c ⟨.opcode8, [0x02, 0x00, 0x00, 0x00, 0xC9]⟩ = .ok (.tick 201) ∧
    decode c ⟨.opcode8, [0x08, 0x99]⟩ = .ok (.rxArrive 0x99) ∧
    decode c ⟨.opcode8, [0x00, 0x03, 0x00, 0x00, 0x00, 0xC8]⟩ = .ok (.reset 3 200) ∧
    decode c ⟨.opcode8, [0x00, 0x01, 0x00, 0x00, 0x00, 0x00, 0x00, 0x00, 0x00, 0xC8]⟩ = .ok (.reset 4294967296 200) ∧
    decode c ⟨.opcode8, [0x31, 0x04, 0x1A, 0x2B, 0x3C]⟩ = .ok (.debFire ⟨0x04, 0x1A, 0x2B, 0x3C⟩) ∧
    decode c ⟨.pf15, [0x02, 0x00, 0x0A, 0x20, 0x01, 0x01, 0x04, 0xFF, 0xFF, 0xFF, 0xFF, 0xFF, 0xFF, 0x2E, 0x03]⟩ =
      .ok .pollRead ∧
    decode c ⟨.rf26, [0x02, 0x00, 0x15, 0x00, 0x04, 0x1A, 0x2B, 0x3C, 0x00, 0x01, 0x02, 0x03, 0x04, 0x05, 0x06, 0x07,
        0x08, 0x09, 0x0A, 0x0B, 0x0C, 0x0D, 0x0E, 0x0F, 0x1C, 0x03]⟩ =
      .ok (.resp ⟨0x04, 0x1A, 0x2B, 0x3C⟩
        #v[0x00, 0x01, 0x02, 0x03, 0x04, 0x05, 0x06, 0x07, 0x08, 0x09, 0x0A, 0x0B, 0x0C, 0x0D, 0x0E, 0x0F] 0x03)
end

