-- ==== Sys2Proof/Laws/Encoding.lean ====
section
/-! SUPPORT. The pieces of the encoding: four bytes and a 32-bit number, the bytes of a natural number, a list and a vector
of bytes. -/

namespace Sys2Proof.Machine

/-- The bits of a number made of four bytes. -/
theorem getLsbD_wordOfBytes (b3 b2 b1 b0 : Byte) (i : Nat) :
    (wordOfBytes b3 b2 b1 b0).getLsbD i =
      if i < 8 then b0.getLsbD i else if i < 16 then b1.getLsbD (i - 8)
      else if i < 24 then b2.getLsbD (i - 16) else b3.getLsbD (i - 24) := by
  have e : (wordOfBytes b3 b2 b1 b0).getLsbD i = BitVec.getLsbD (w := 8 + 8 + 8 + 8) (b3 ++ b2 ++ b1 ++ b0) i := rfl
  rw [e, BitVec.getLsbD_append, BitVec.getLsbD_append, BitVec.getLsbD_append]
  simp only [Nat.sub_sub]
  split_ifs <;> first | rfl | omega

/-- Four bytes make a number and the number gives the four bytes back. -/
theorem bytesOfWord_wordOfBytes (b3 b2 b1 b0 : Byte) : bytesOfWord (wordOfBytes b3 b2 b1 b0) = [b3, b2, b1, b0] := by
  have e3 : (wordOfBytes b3 b2 b1 b0).extractLsb' 24 8 = b3 := by
    apply BitVec.eq_of_getLsbD_eq
    intro i hi
    simp only [BitVec.getLsbD_extractLsb', getLsbD_wordOfBytes, hi, decide_true, Bool.true_and]
    rw [if_neg (by omega), if_neg (by omega), if_neg (by omega), Nat.add_sub_cancel_left]
  have e2 : (wordOfBytes b3 b2 b1 b0).extractLsb' 16 8 = b2 := by
    apply BitVec.eq_of_getLsbD_eq
    intro i hi
    simp only [BitVec.getLsbD_extractLsb', getLsbD_wordOfBytes, hi, decide_true, Bool.true_and]
    rw [if_neg (by omega), if_neg (by omega), if_pos (by omega), Nat.add_sub_cancel_left]
  have e1 : (wordOfBytes b3 b2 b1 b0).extractLsb' 8 8 = b1 := by
    apply BitVec.eq_of_getLsbD_eq
    intro i hi
    simp only [BitVec.getLsbD_extractLsb', getLsbD_wordOfBytes, hi, decide_true, Bool.true_and]
    rw [if_neg (by omega), if_pos (by omega), Nat.add_sub_cancel_left]
  have e0 : (wordOfBytes b3 b2 b1 b0).extractLsb' 0 8 = b0 := by
    apply BitVec.eq_of_getLsbD_eq
    intro i hi
    simp only [BitVec.getLsbD_extractLsb', getLsbD_wordOfBytes, hi, decide_true, Bool.true_and]
    rw [if_pos (by omega), Nat.zero_add]
  simp only [bytesOfWord, e3, e2, e1, e0]

/-- A number gives four bytes and the four bytes make the number. -/
theorem wordOfBytes_bytesOfWord (w : BitVec 32) :
    wordOfBytes (w.extractLsb' 24 8) (w.extractLsb' 16 8) (w.extractLsb' 8 8) (w.extractLsb' 0 8) = w := by
  apply BitVec.eq_of_getLsbD_eq
  intro i hi
  simp only [getLsbD_wordOfBytes, BitVec.getLsbD_extractLsb']
  split_ifs with h0 h1 h2
  · simp [h0]
  · simp [show i - 8 < 8 by omega, show 8 + (i - 8) = i by omega]
  · simp [show i - 16 < 8 by omega, show 16 + (i - 16) = i by omega]
  · simp [show i - 24 < 8 by omega, show 24 + (i - 24) = i by omega]

@[simp] theorem bytesOfWord_length (w : BitVec 32) : (bytesOfWord w).length = 4 := rfl

/-! The bytes of a natural number. -/

/-- The number that bytes make, the least significant first. -/
theorem natOfBytes_reverse (bs : List Byte) :
    natOfBytes bs.reverse = bs.foldr (fun b n => 256 * n + b.toNat) 0 := by
  simp [natOfBytes, List.foldl_reverse]

/-- The bytes of a number make the number. -/
theorem foldr_littleBytes (fuel n : Nat) (h : n ≤ fuel) :
    (littleBytes fuel n).foldr (fun b m => 256 * m + b.toNat) 0 = n := by
  induction fuel generalizing n with
  | zero => simp [littleBytes, Nat.le_zero.mp h]
  | succ fuel ih =>
    by_cases h0 : n = 0
    · simp [littleBytes, h0]
    · simp only [littleBytes, if_neg h0, List.foldr_cons, ih (n / 256) (by omega), BitVec.toNat_ofNat]
      omega

/-- A natural number gives its bytes and they make the number. -/
@[simp] theorem natOfBytes_bytesOfNat (n : Nat) : natOfBytes (bytesOfNat n) = n := by
  rw [bytesOfNat, natOfBytes_reverse, foldr_littleBytes n n (Nat.le_refl n)]

/-- The most significant byte of a number is not zero. -/
theorem getLast?_littleBytes (fuel n : Nat) (h : n ≤ fuel) : (littleBytes fuel n).getLast? ≠ some 0 := by
  induction fuel generalizing n with
  | zero => simp [littleBytes]
  | succ fuel ih =>
    by_cases h0 : n = 0
    · simp [littleBytes, h0]
    · simp only [littleBytes, if_neg h0, List.getLast?_cons]
      have last := ih (n / 256) (by omega)
      cases hl : (littleBytes fuel (n / 256)).getLast? with
      | some b =>
        rw [hl] at last
        exact last
      | none =>
        have small : n / 256 = 0 := by
          have value := foldr_littleBytes fuel (n / 256) (by omega)
          rw [List.getLast?_eq_none_iff.mp hl] at value
          exact value.symm
        intro zero
        have low := congrArg BitVec.toNat (Option.some.inj zero)
        rw [Option.getD_none, BitVec.toNat_ofNat] at low
        have : ((0 : Byte)).toNat = 0 := rfl
        omega

/-- The bytes of a number have no leading zero. -/
theorem head?_bytesOfNat (n : Nat) : (bytesOfNat n).head? ≠ some 0 := by
  rw [bytesOfNat, List.head?_reverse]
  exact getLast?_littleBytes n n (Nat.le_refl n)

/-- Bytes without a zero at the significant end are the bytes of their number. -/
theorem littleBytes_foldr (bs : List Byte) (h : bs.getLast? ≠ some 0) (fuel : Nat)
    (hf : bs.foldr (fun b n => 256 * n + b.toNat) 0 ≤ fuel) :
    littleBytes fuel (bs.foldr (fun b n => 256 * n + b.toNat) 0) = bs := by
  induction bs generalizing fuel with
  | nil => cases fuel <;> rfl
  | cons b bs ih =>
    have tail : bs.getLast? ≠ some 0 := by
      cases bs with
      | nil => simp
      | cons c bs => simpa using h
    simp only [List.foldr_cons] at hf ⊢
    generalize hv : bs.foldr (fun b n => 256 * n + b.toNat) 0 = v at hf ih ⊢
    have hb := b.isLt
    have pos : 256 * v + b.toNat ≠ 0 := by
      intro z
      have hv0 : v = 0 := by omega
      have hb0 : b = 0 := BitVec.eq_of_toNat_eq (show b.toNat = 0 by omega)
      have rest := ih tail v (Nat.le_refl v)
      rw [hv0] at rest
      have empty : bs = [] := rest.symm
      exact h (by rw [empty, hb0]; rfl)
    cases fuel with
    | zero => omega
    | succ fuel =>
      have low : BitVec.ofNat 8 (256 * v + b.toNat) = b :=
        BitVec.eq_of_toNat_eq (by simp only [BitVec.toNat_ofNat]; omega)
      have high : (256 * v + b.toNat) / 256 = v := by omega
      rw [littleBytes, if_neg pos, low, high, ih tail fuel (by omega)]

/-- Bytes without a leading zero make a number and it gives the bytes back. -/
theorem bytesOfNat_natOfBytes (bs : List Byte) (h : bs.head? ≠ some 0) : bytesOfNat (natOfBytes bs) = bs := by
  have e := natOfBytes_reverse bs.reverse
  rw [List.reverse_reverse] at e
  rw [bytesOfNat, e, littleBytes_foldr bs.reverse (by rwa [List.getLast?_reverse]) _ (Nat.le_refl _),
    List.reverse_reverse]

/-- A vector's own list reads back as the vector. -/
@[simp] theorem vectorOfList_toList (n : Nat) (v : Vector Byte n) : vectorOfList n v.toList = some v := by
  unfold vectorOfList
  rw [dif_pos (by simp)]
  rfl

theorem toList_of_vectorOfList (n : Nat) (l : List Byte) (v : Vector Byte n) (h : vectorOfList n l = some v) :
    v.toList = l := by
  unfold vectorOfList at h
  split at h
  · cases h
    rfl
  · cases h

/-! What each listed code decodes to (30_encoding.md R100, R107). -/

section Codes
variable (c : Params)

theorem decode_reset (number : List Byte) (h : number.head? ≠ some 0) (i3 i2 i1 i0 : Byte) :
    decode c (opcodePacket 0x00 (number ++ [i3, i2, i1, i0])) =
      .ok (.reset (natOfBytes number) (wordOfBytes i3 i2 i1 i0)) := by
  have e : (0x00 : Byte).toNat = 0x00 := rfl
  have o : operandLength 0x00 = some 4 := rfl
  have r : decodeOperation 0x00 (number ++ [i3, i2, i1, i0]) =
      some (.reset (natOfBytes number) (wordOfBytes i3 i2 i1 i0)) := by
    have k : (number ++ [i3, i2, i1, i0]).length - 4 = number.length := by simp
    show natWordOperands Instr.reset _ = _
    rw [natWordOperands, k, List.take_left, List.drop_left]
    exact if_neg h
  simp only [decode, opcodePacket, decodeOpcode8, e, o, r]
theorem decode_setup : decode c (opcodePacket 0x01 []) = .ok .setup := rfl
theorem decode_tick (n3 n2 n1 n0 : Byte) :
    decode c (opcodePacket 0x02 [n3, n2, n1, n0]) = .ok (.tick (wordOfBytes n3 n2 n1 n0)) := rfl
theorem decode_rxArrive (b : Byte) : decode c (opcodePacket 0x08 [b]) = .ok (.rxArrive b) := rfl
theorem decode_gate : decode c (opcodePacket 0x10 []) = .ok .gate := rfl
theorem decode_sched (n3 n2 n1 n0 : Byte) :
    decode c (opcodePacket 0x11 [n3, n2, n1, n0]) = .ok (.sched (wordOfBytes n3 n2 n1 n0)) := rfl
theorem decode_drain (n3 n2 n1 n0 : Byte) :
    decode c (opcodePacket 0x12 [n3, n2, n1, n0]) = .ok (.drain (wordOfBytes n3 n2 n1 n0)) := rfl
theorem decode_rxbSeek (b : Byte) : decode c (opcodePacket 0x20 [b]) = .ok (.rxbSeek b) := rfl
theorem decode_rxbAcc (b n3 n2 n1 n0 : Byte) :
    decode c (opcodePacket 0x21 [b, n3, n2, n1, n0]) = .ok (.rxbAcc b (wordOfBytes n3 n2 n1 n0)) := rfl
theorem decode_complete (n3 n2 n1 n0 : Byte) :
    decode c (opcodePacket 0x22 [n3, n2, n1, n0]) = .ok (.complete (wordOfBytes n3 n2 n1 n0)) := rfl
theorem decode_bccChk (f : Frame) : decode c (opcodePacket 0x23 f.toList) = .ok (.bccChk f) := by
  have h : decodeOperation 0x23 f.toList = some (.bccChk f) := by
    show (vectorOfList 26 f.toList).map Instr.bccChk = _
    rw [vectorOfList_toList]
    rfl
  have e : (0x23 : Byte).toNat = 0x23 := rfl
  have o : operandLength 0x23 = some 26 := rfl
  simp only [decode, opcodePacket, decodeOpcode8, e, o, h]
theorem decode_uidx (f : Frame) : decode c (opcodePacket 0x24 f.toList) = .ok (.uidx f) := by
  have h : decodeOperation 0x24 f.toList = some (.uidx f) := by
    show (vectorOfList 26 f.toList).map Instr.uidx = _
    rw [vectorOfList_toList]
    rfl
  have e : (0x24 : Byte).toNat = 0x24 := rfl
  have o : operandLength 0x24 = some 26 := rfl
  simp only [decode, opcodePacket, decodeOpcode8, e, o, h]
theorem decode_debStore (u0 u1 u2 u3 t3 t2 t1 t0 : Byte) :
    decode c (opcodePacket 0x30 [u0, u1, u2, u3, t3, t2, t1, t0]) =
      .ok (.debStore ⟨u0, u1, u2, u3⟩ (wordOfBytes t3 t2 t1 t0)) := rfl
theorem decode_debFire (u0 u1 u2 u3 : Byte) :
    decode c (opcodePacket 0x31 [u0, u1, u2, u3]) = .ok (.debFire ⟨u0, u1, u2, u3⟩) := rfl

end Codes

/-! What the argument bytes were, where an operation was read from them. -/

theorem noOperand_some (i j : Instr) (args : List Byte) (h : noOperand i args = some j) : args = [] ∧ j = i := by
  match args, h with
  | [], h =>
    cases h
    exact ⟨rfl, rfl⟩

theorem byteOperand_some (f : Byte → Instr) (j : Instr) (args : List Byte) (h : byteOperand f args = some j) :
    ∃ b, args = [b] ∧ j = f b := by
  match args, h with
  | [b], h =>
    cases h
    exact ⟨b, rfl, rfl⟩

theorem wordOperand_some (f : BitVec 32 → Instr) (j : Instr) (args : List Byte) (h : wordOperand f args = some j) :
    ∃ w, args = bytesOfWord w ∧ j = f w := by
  match args, h with
  | [n3, n2, n1, n0], h =>
    cases h
    exact ⟨_, (bytesOfWord_wordOfBytes n3 n2 n1 n0).symm, rfl⟩

theorem byteWordOperands_some (f : Byte → BitVec 32 → Instr) (j : Instr) (args : List Byte)
    (h : byteWordOperands f args = some j) : ∃ b w, args = b :: bytesOfWord w ∧ j = f b w := by
  match args, h with
  | [b, n3, n2, n1, n0], h =>
    cases h
    exact ⟨b, _, by rw [bytesOfWord_wordOfBytes n3 n2 n1 n0], rfl⟩

theorem natWordOperands_some (f : Nat → BitVec 32 → Instr) (j : Instr) (args : List Byte)
    (h : natWordOperands f args = some j) : ∃ n w, args = bytesOfNat n ++ bytesOfWord w ∧ j = f n w := by
  unfold natWordOperands at h
  split at h
  · rename_i n3 n2 n1 n0 word
    split at h
    · cases h
    · rename_i canonical
      cases h
      refine ⟨_, _, ?_, rfl⟩
      rw [bytesOfNat_natOfBytes _ canonical, bytesOfWord_wordOfBytes n3 n2 n1 n0, ← word, List.take_append_drop]
  · cases h

theorem frameOperand_some (f : Frame → Instr) (j : Instr) (args : List Byte) (h : frameOperand f args = some j) :
    ∃ v : Frame, args = v.toList ∧ j = f v := by
  unfold frameOperand at h
  cases hv : vectorOfList Config.frameLen args with
  | none =>
    rw [hv] at h
    cases h
  | some v =>
    rw [hv] at h
    cases h
    exact ⟨v, (toList_of_vectorOfList _ _ _ hv).symm, rfl⟩

theorem uidOperand_some (f : Uid → Instr) (j : Instr) (args : List Byte) (h : uidOperand f args = some j) :
    ∃ u, args = uidBytes u ∧ j = f u := by
  match args, h with
  | [u0, u1, u2, u3], h =>
    cases h
    exact ⟨_, rfl, rfl⟩

theorem uidWordOperands_some (f : Uid → BitVec 32 → Instr) (j : Instr) (args : List Byte)
    (h : uidWordOperands f args = some j) : ∃ u w, args = uidBytes u ++ bytesOfWord w ∧ j = f u w := by
  match args, h with
  | [u0, u1, u2, u3, t3, t2, t1, t0], h =>
    cases h
    exact ⟨_, _, by rw [bytesOfWord_wordOfBytes t3 t2 t1 t0]; rfl, rfl⟩

/-- A byte with the number of a literal is that literal. -/
theorem byte_of_toNat (b : Byte) (n : Nat) (h : b.toNat = n) : b = BitVec.ofNat 8 n := by
  rw [← h, BitVec.ofNat_toNat, BitVec.setWidth_eq]

end Sys2Proof.Machine
end

