-- ==== Sys2Proof/Laws/Memory.lean ====
section
/-! SUPPORT. The laws of the cells of BUF: a read after a write, the canonical form, and that equal contents in canonical
form are equal data. -/

namespace Sys2Proof.Machine

theorem Memory.read_write (m : Memory) (a k : Nat) (v : Byte) (h : m.wf = true) :
    Memory.read (Memory.write m a v) k = if k = a then v else Memory.read m k := by
  induction m with
  | nil =>
    by_cases hv : v = Memory.unlisted <;> by_cases hk : k = a <;> simp [Memory.write, Memory.read, hv, hk]
  | cons c m ih =>
    obtain ⟨b, w⟩ := c
    simp only [Memory.wf, Bool.and_eq_true, decide_eq_true_eq, List.all_eq_true] at h
    obtain ⟨⟨⟨-, -⟩, hlt⟩, hm⟩ := h
    have above : ∀ x, x ≤ b → Memory.read m x = Memory.unlisted := by
      intro x hx
      clear ih
      induction m with
      | nil => rfl
      | cons d m ihm =>
        have hd := hlt d (by simp)
        simp only [Memory.wf, Bool.and_eq_true] at hm
        have hne : x ≠ d.1 := by omega
        simp only [Memory.read, hne, if_false]
        exact ihm hm.2 (fun y hy => hlt y (by simp [hy]))
    simp only [Memory.write]
    by_cases hab : a < b
    · by_cases hv : v = Memory.unlisted
      · by_cases hk : k = a
        · have hkb : k ≠ b := by omega
          have := above a (by omega)
          simp [hab, hv, hk, Memory.read, show a ≠ b by omega, this]
        · simp [hab, hv, hk]
      · simp [hab, hv, Memory.read]
    · by_cases hab' : a = b
      · subst hab'
        by_cases hv : v = Memory.unlisted
        · by_cases hk : k = a
          · have := above a (le_refl a)
            simp [hv, hk, this]
          · simp [hv, hk, Memory.read]
        · by_cases hk : k = a <;> simp [hv, hk, Memory.read]
      · have hba : b ≠ a := fun e => hab' e.symm
        simp only [hab, hab', if_false, Memory.read, ih hm]
        by_cases hk : k = b <;> simp [hk, hba]

theorem Memory.mem_write (m : Memory) (a : Nat) (v : Byte) (c : Host.Cell) (h : c ∈ m.write a v) :
    c = (a, v) ∨ c ∈ m := by
  induction m with
  | nil =>
    simp only [Memory.write] at h
    split at h <;> simp_all
  | cons d m ih =>
    obtain ⟨b, w⟩ := d
    simp only [Memory.write] at h
    split at h
    · split at h <;> simp_all
    · split at h
      · split at h <;> simp_all
        tauto
      · rcases List.mem_cons.mp h with h | h
        · simp [h]
        · rcases ih h with h | h <;> simp [h]

/-- A write inside the 26 cells keeps the canonical form. -/
theorem Memory.wf_write (m : Memory) (a : Nat) (v : Byte) (ha : a < Config.frameLen) (h : m.wf = true) :
    (m.write a v).wf = true := by
  induction m with
  | nil => by_cases hv : v = Memory.unlisted <;> simp_all [Memory.write, Memory.wf]
  | cons c m ih =>
    obtain ⟨b, w⟩ := c
    have hc := h
    simp only [Memory.wf, Bool.and_eq_true, decide_eq_true_eq, List.all_eq_true] at hc
    obtain ⟨⟨⟨hb, hw⟩, hlt⟩, hm⟩ := hc
    simp only [Memory.write]
    split
    · rename_i hab
      split
      · exact h
      · rename_i hv
        have : ∀ c ∈ (b, w) :: m, a < c.1 := by
          intro c hc
          rcases List.mem_cons.mp hc with e | e
          · simpa [e] using hab
          · exact lt_trans hab (hlt c e)
        rw [Memory.wf, h]
        simp only [Bool.and_eq_true, decide_eq_true_eq, List.all_eq_true, and_true]
        exact ⟨⟨ha, hv⟩, this⟩
    · split
      · rename_i hab
        subst hab
        split
        · exact hm
        · rename_i hv
          rw [Memory.wf, hm]
          simp only [Bool.and_eq_true, decide_eq_true_eq, List.all_eq_true, and_true]
          exact ⟨⟨ha, hv⟩, hlt⟩
      · rename_i hab hne
        rw [Memory.wf, ih hm]
        simp only [Bool.and_eq_true, decide_eq_true_eq, List.all_eq_true, and_true]
        refine ⟨⟨hb, hw⟩, fun c hc => ?_⟩
        rcases Memory.mem_write m a v c hc with e | e
        · subst e
          simp only
          omega
        · exact hlt c e

theorem Memory.read_of_lt (m : Memory) (x : Nat) (h : ∀ c ∈ m, x < c.1) : Memory.read m x = Memory.unlisted := by
  induction m with
  | nil => rfl
  | cons d m ih =>
    have hd := h d (by simp)
    have hne : x ≠ d.1 := by omega
    simp only [Memory.read, hne, if_false]
    exact ih fun c hc => h c (by simp [hc])

/-- Canonical form: two lists of cells that read alike everywhere are the same list. -/
theorem Memory.eq_of_read (m m' : Memory) (h : Memory.wf m = true) (h' : Memory.wf m' = true)
    (e : ∀ k, Memory.read m k = Memory.read m' k) : m = m' := by
  induction m generalizing m' with
  | nil =>
    cases m' with
    | nil => rfl
    | cons d m' =>
      have := e d.1
      simp_all [Memory.wf, Memory.read]
  | cons c m ih =>
    cases m' with
    | nil =>
      have := e c.1
      simp_all [Memory.wf, Memory.read]
    | cons d m' =>
      obtain ⟨a, v⟩ := c
      obtain ⟨b, w⟩ := d
      simp only [Memory.wf, Bool.and_eq_true, decide_eq_true_eq, List.all_eq_true] at h h'
      obtain ⟨⟨⟨-, hv⟩, hl⟩, hm⟩ := h
      obtain ⟨⟨⟨-, hw⟩, hl'⟩, hm'⟩ := h'
      have hab : a = b := by
        rcases lt_trichotomy a b with hlt | heq | hlt
        · have ea := e a
          have lo : Memory.read m' a = Memory.unlisted :=
            Memory.read_of_lt m' a fun c hc => lt_trans hlt (hl' c hc)
          simp only [Memory.read, if_true, show a ≠ b by omega, if_false, lo] at ea
          exact absurd ea hv
        · exact heq
        · have eb := e b
          have lo : Memory.read m b = Memory.unlisted :=
            Memory.read_of_lt m b fun c hc => lt_trans hlt (hl c hc)
          simp only [Memory.read, if_true, show b ≠ a by omega, if_false, lo] at eb
          exact absurd eb.symm hw
      subst hab
      have hvw : v = w := by simpa [Memory.read] using e a
      subst hvw
      have tails : m = m' := by
        refine ih m' hm hm' fun k => ?_
        have ek := e k
        by_cases hk : k = a
        · subst hk
          rw [Memory.read_of_lt m k hl, Memory.read_of_lt m' k hl']
        · simpa [Memory.read, hk] using ek
      rw [tails]

/-- The frame's cell `k` is the byte read at `k`. -/
@[simp] theorem Memory.frame_getElem (m : Memory) (k : Nat) (h : k < 26) : m.frame[k] = m.read k := by
  simp [Memory.frame]

theorem Memory.frame_toList (m : Memory) : m.frame.toList = (List.range 26).map m.read := by
  apply List.ext_getElem
  · simp
  · intro i h1 h2
    simp [Memory.frame]

/-- Seeding the header keeps the canonical form. -/
theorem seedHeader_wf (c : Params) (m : Memory) (h : m.wf = true) : (seedHeader c m).wf = true := by
  refine Memory.wf_write _ _ _ (by decide) ?_
  refine Memory.wf_write _ _ _ (by decide) ?_
  refine Memory.wf_write _ _ _ (by decide) ?_
  exact Memory.wf_write _ _ _ (by decide) h

/-- After seeding, cells 0 to 3 hold the header and every other cell reads as before (42_frame_sync.md R165). -/
theorem seedHeader_read (c : Params) (m : Memory) (h : m.wf = true) (k : Nat) :
    (seedHeader c m).read k = if hk : k < 4 then hdrByte c ⟨k, hk⟩ else m.read k := by
  have w0 := Memory.wf_write m 0 (hdrByte c 0) (by decide) h
  have w1 := Memory.wf_write _ 1 (hdrByte c 1) (by decide) w0
  have w2 := Memory.wf_write _ 2 (hdrByte c 2) (by decide) w1
  simp only [seedHeader, Memory.read_write _ _ _ _ h, Memory.read_write _ _ _ _ w0, Memory.read_write _ _ _ _ w1,
    Memory.read_write _ _ _ _ w2]
  split_ifs <;> first | rfl | omega | (subst_vars; rfl)

end Sys2Proof.Machine
end

