-- ==== Sys2Proof/Laws/State.lean ====
section
/-! SUPPORT. Each named update of State against each field: what it writes and that it writes nothing else. All are
true by `rfl`, so that no later proof unfolds a record update. -/

namespace Sys2Proof.Machine

variable (s : State)

/-! `setArmed` -/

@[simp] theorem setArmed_tickCounter (a : Bool) : (setArmed a s).tickCounter = s.tickCounter := rfl
@[simp] theorem setArmed_lastRequestTs (a : Bool) : (setArmed a s).lastRequestTs = s.lastRequestTs := rfl
@[simp] theorem setArmed_syncState (a : Bool) : (setArmed a s).syncState = s.syncState := rfl
@[simp] theorem setArmed_hdrIdx (a : Bool) : (setArmed a s).hdrIdx = s.hdrIdx := rfl
@[simp] theorem setArmed_buf (a : Bool) : (setArmed a s).buf = s.buf := rfl
@[simp] theorem setArmed_bufLen (a : Bool) : (setArmed a s).bufLen = s.bufLen := rfl
@[simp] theorem setArmed_lastSeenUid (a : Bool) : (setArmed a s).lastSeenUid = s.lastSeenUid := rfl
@[simp] theorem setArmed_lastSeenTs (a : Bool) : (setArmed a s).lastSeenTs = s.lastSeenTs := rfl
@[simp] theorem setArmed_armed (a : Bool) : (setArmed a s).armed = a := rfl
@[simp] theorem setArmed_hdrMismatchCnt (a : Bool) : (setArmed a s).hdrMismatchCnt = s.hdrMismatchCnt := rfl
@[simp] theorem setArmed_bccFailCnt (a : Bool) : (setArmed a s).bccFailCnt = s.bccFailCnt := rfl
@[simp] theorem setArmed_linkUp (a : Bool) : (setArmed a s).linkUp = s.linkUp := rfl
@[simp] theorem setArmed_inTick (a : Bool) : (setArmed a s).inTick = s.inTick := rfl
@[simp] theorem setArmed_cfg (a : Bool) : (setArmed a s).cfg = s.cfg := rfl
@[simp] theorem setArmed_rxq (a : Bool) : (setArmed a s).rxq = s.rxq := rfl
@[simp] theorem setArmed_txlog (a : Bool) : (setArmed a s).txlog = s.txlog := rfl
@[simp] theorem setArmed_evlog (a : Bool) : (setArmed a s).evlog = s.evlog := rfl
@[simp] theorem setArmed_clock (a : Bool) : (setArmed a s).clock = s.clock := rfl
@[simp] theorem setArmed_result (a : Bool) : (setArmed a s).result = s.result := rfl
@[simp] theorem setArmed_freeCount (a : Bool) : (setArmed a s).freeCount = s.freeCount := rfl
@[simp] theorem setArmed_pending (a : Bool) : (setArmed a s).pending = s.pending := rfl

/-! `presence` -/

@[simp] theorem presence_tickCounter (u : Uid) (now : Time) : (presence u now s).tickCounter = s.tickCounter := rfl
@[simp] theorem presence_lastRequestTs (u : Uid) (now : Time) : (presence u now s).lastRequestTs = s.lastRequestTs := rfl
@[simp] theorem presence_syncState (u : Uid) (now : Time) : (presence u now s).syncState = s.syncState := rfl
@[simp] theorem presence_hdrIdx (u : Uid) (now : Time) : (presence u now s).hdrIdx = s.hdrIdx := rfl
@[simp] theorem presence_buf (u : Uid) (now : Time) : (presence u now s).buf = s.buf := rfl
@[simp] theorem presence_bufLen (u : Uid) (now : Time) : (presence u now s).bufLen = s.bufLen := rfl
@[simp] theorem presence_lastSeenUid (u : Uid) (now : Time) : (presence u now s).lastSeenUid = s.lastSeenUid := rfl
@[simp] theorem presence_lastSeenTs (u : Uid) (now : Time) : (presence u now s).lastSeenTs = s.lastSeenTs := rfl
@[simp] theorem presence_armed (u : Uid) (now : Time) : (presence u now s).armed = s.armed := rfl
@[simp] theorem presence_hdrMismatchCnt (u : Uid) (now : Time) : (presence u now s).hdrMismatchCnt = s.hdrMismatchCnt := rfl
@[simp] theorem presence_bccFailCnt (u : Uid) (now : Time) : (presence u now s).bccFailCnt = s.bccFailCnt := rfl
@[simp] theorem presence_linkUp (u : Uid) (now : Time) : (presence u now s).linkUp = s.linkUp := rfl
@[simp] theorem presence_inTick (u : Uid) (now : Time) : (presence u now s).inTick = s.inTick := rfl
@[simp] theorem presence_cfg (u : Uid) (now : Time) : (presence u now s).cfg = s.cfg := rfl
@[simp] theorem presence_rxq (u : Uid) (now : Time) : (presence u now s).rxq = s.rxq := rfl
@[simp] theorem presence_txlog (u : Uid) (now : Time) : (presence u now s).txlog = s.txlog := rfl
@[simp] theorem presence_evlog (u : Uid) (now : Time) : (presence u now s).evlog = s.evlog ++ [⟨u, now⟩] := rfl
@[simp] theorem presence_clock (u : Uid) (now : Time) : (presence u now s).clock = s.clock := rfl
@[simp] theorem presence_result (u : Uid) (now : Time) : (presence u now s).result = s.result := rfl
@[simp] theorem presence_freeCount (u : Uid) (now : Time) : (presence u now s).freeCount = s.freeCount := rfl
@[simp] theorem presence_pending (u : Uid) (now : Time) : (presence u now s).pending = s.pending := rfl

/-! `resetSync` -/

@[simp] theorem resetSync_tickCounter : (resetSync s).tickCounter = s.tickCounter := rfl
@[simp] theorem resetSync_lastRequestTs : (resetSync s).lastRequestTs = s.lastRequestTs := rfl
@[simp] theorem resetSync_syncState : (resetSync s).syncState = .seekingHeader := rfl
@[simp] theorem resetSync_hdrIdx : (resetSync s).hdrIdx = 0 := rfl
@[simp] theorem resetSync_buf : (resetSync s).buf = s.buf := rfl
@[simp] theorem resetSync_bufLen : (resetSync s).bufLen = 0 := rfl
@[simp] theorem resetSync_lastSeenUid : (resetSync s).lastSeenUid = s.lastSeenUid := rfl
@[simp] theorem resetSync_lastSeenTs : (resetSync s).lastSeenTs = s.lastSeenTs := rfl
@[simp] theorem resetSync_armed : (resetSync s).armed = s.armed := rfl
@[simp] theorem resetSync_hdrMismatchCnt : (resetSync s).hdrMismatchCnt = s.hdrMismatchCnt := rfl
@[simp] theorem resetSync_bccFailCnt : (resetSync s).bccFailCnt = s.bccFailCnt := rfl
@[simp] theorem resetSync_linkUp : (resetSync s).linkUp = s.linkUp := rfl
@[simp] theorem resetSync_inTick : (resetSync s).inTick = s.inTick := rfl
@[simp] theorem resetSync_cfg : (resetSync s).cfg = s.cfg := rfl
@[simp] theorem resetSync_rxq : (resetSync s).rxq = s.rxq := rfl
@[simp] theorem resetSync_txlog : (resetSync s).txlog = s.txlog := rfl
@[simp] theorem resetSync_evlog : (resetSync s).evlog = s.evlog := rfl
@[simp] theorem resetSync_clock : (resetSync s).clock = s.clock := rfl
@[simp] theorem resetSync_result : (resetSync s).result = s.result := rfl
@[simp] theorem resetSync_freeCount : (resetSync s).freeCount = s.freeCount := rfl
@[simp] theorem resetSync_pending : (resetSync s).pending = s.pending := rfl

/-! `countTick` -/

@[simp] theorem countTick_tickCounter : (countTick s).tickCounter = s.tickCounter + 1 := rfl
@[simp] theorem countTick_lastRequestTs : (countTick s).lastRequestTs = s.lastRequestTs := rfl
@[simp] theorem countTick_syncState : (countTick s).syncState = s.syncState := rfl
@[simp] theorem countTick_hdrIdx : (countTick s).hdrIdx = s.hdrIdx := rfl
@[simp] theorem countTick_buf : (countTick s).buf = s.buf := rfl
@[simp] theorem countTick_bufLen : (countTick s).bufLen = s.bufLen := rfl
@[simp] theorem countTick_lastSeenUid : (countTick s).lastSeenUid = s.lastSeenUid := rfl
@[simp] theorem countTick_lastSeenTs : (countTick s).lastSeenTs = s.lastSeenTs := rfl
@[simp] theorem countTick_armed : (countTick s).armed = s.armed := rfl
@[simp] theorem countTick_hdrMismatchCnt : (countTick s).hdrMismatchCnt = s.hdrMismatchCnt := rfl
@[simp] theorem countTick_bccFailCnt : (countTick s).bccFailCnt = s.bccFailCnt := rfl
@[simp] theorem countTick_linkUp : (countTick s).linkUp = s.linkUp := rfl
@[simp] theorem countTick_inTick : (countTick s).inTick = s.inTick := rfl
@[simp] theorem countTick_cfg : (countTick s).cfg = s.cfg := rfl
@[simp] theorem countTick_rxq : (countTick s).rxq = s.rxq := rfl
@[simp] theorem countTick_txlog : (countTick s).txlog = s.txlog := rfl
@[simp] theorem countTick_evlog : (countTick s).evlog = s.evlog := rfl
@[simp] theorem countTick_clock : (countTick s).clock = s.clock := rfl
@[simp] theorem countTick_result : (countTick s).result = s.result := rfl
@[simp] theorem countTick_freeCount : (countTick s).freeCount = s.freeCount := rfl
@[simp] theorem countTick_pending : (countTick s).pending = s.pending := rfl

/-! `txWrite` -/

@[simp] theorem txWrite_tickCounter (now : Time) : (txWrite now s).tickCounter = s.tickCounter := rfl
@[simp] theorem txWrite_lastRequestTs (now : Time) : (txWrite now s).lastRequestTs = s.lastRequestTs := rfl
@[simp] theorem txWrite_syncState (now : Time) : (txWrite now s).syncState = s.syncState := rfl
@[simp] theorem txWrite_hdrIdx (now : Time) : (txWrite now s).hdrIdx = s.hdrIdx := rfl
@[simp] theorem txWrite_buf (now : Time) : (txWrite now s).buf = s.buf := rfl
@[simp] theorem txWrite_bufLen (now : Time) : (txWrite now s).bufLen = s.bufLen := rfl
@[simp] theorem txWrite_lastSeenUid (now : Time) : (txWrite now s).lastSeenUid = s.lastSeenUid := rfl
@[simp] theorem txWrite_lastSeenTs (now : Time) : (txWrite now s).lastSeenTs = s.lastSeenTs := rfl
@[simp] theorem txWrite_armed (now : Time) : (txWrite now s).armed = s.armed := rfl
@[simp] theorem txWrite_hdrMismatchCnt (now : Time) : (txWrite now s).hdrMismatchCnt = s.hdrMismatchCnt := rfl
@[simp] theorem txWrite_bccFailCnt (now : Time) : (txWrite now s).bccFailCnt = s.bccFailCnt := rfl
@[simp] theorem txWrite_linkUp (now : Time) : (txWrite now s).linkUp = s.linkUp := rfl
@[simp] theorem txWrite_inTick (now : Time) : (txWrite now s).inTick = s.inTick := rfl
@[simp] theorem txWrite_cfg (now : Time) : (txWrite now s).cfg = s.cfg := rfl
@[simp] theorem txWrite_rxq (now : Time) : (txWrite now s).rxq = s.rxq := rfl
@[simp] theorem txWrite_txlog (now : Time) : (txWrite now s).txlog = s.txlog ++ [⟨now, pollFrame, Config.txDelivered s.freeCount⟩] := rfl
@[simp] theorem txWrite_evlog (now : Time) : (txWrite now s).evlog = s.evlog := rfl
@[simp] theorem txWrite_clock (now : Time) : (txWrite now s).clock = s.clock := rfl
@[simp] theorem txWrite_result (now : Time) : (txWrite now s).result = s.result := rfl
@[simp] theorem txWrite_freeCount (now : Time) : (txWrite now s).freeCount = s.freeCount + 1 := rfl
@[simp] theorem txWrite_pending (now : Time) : (txWrite now s).pending = s.pending := rfl

/-! `debStore` -/

@[simp] theorem debStore_tickCounter (u : Uid) (t : Time) : (debStore u t s).tickCounter = s.tickCounter := rfl
@[simp] theorem debStore_lastRequestTs (u : Uid) (t : Time) : (debStore u t s).lastRequestTs = s.lastRequestTs := rfl
@[simp] theorem debStore_syncState (u : Uid) (t : Time) : (debStore u t s).syncState = s.syncState := rfl
@[simp] theorem debStore_hdrIdx (u : Uid) (t : Time) : (debStore u t s).hdrIdx = s.hdrIdx := rfl
@[simp] theorem debStore_buf (u : Uid) (t : Time) : (debStore u t s).buf = s.buf := rfl
@[simp] theorem debStore_bufLen (u : Uid) (t : Time) : (debStore u t s).bufLen = s.bufLen := rfl
@[simp] theorem debStore_lastSeenUid (u : Uid) (t : Time) : (debStore u t s).lastSeenUid = u := rfl
@[simp] theorem debStore_lastSeenTs (u : Uid) (t : Time) : (debStore u t s).lastSeenTs = t := rfl
@[simp] theorem debStore_armed (u : Uid) (t : Time) : (debStore u t s).armed = true := rfl
@[simp] theorem debStore_hdrMismatchCnt (u : Uid) (t : Time) : (debStore u t s).hdrMismatchCnt = s.hdrMismatchCnt := rfl
@[simp] theorem debStore_bccFailCnt (u : Uid) (t : Time) : (debStore u t s).bccFailCnt = s.bccFailCnt := rfl
@[simp] theorem debStore_linkUp (u : Uid) (t : Time) : (debStore u t s).linkUp = s.linkUp := rfl
@[simp] theorem debStore_inTick (u : Uid) (t : Time) : (debStore u t s).inTick = s.inTick := rfl
@[simp] theorem debStore_cfg (u : Uid) (t : Time) : (debStore u t s).cfg = s.cfg := rfl
@[simp] theorem debStore_rxq (u : Uid) (t : Time) : (debStore u t s).rxq = s.rxq := rfl
@[simp] theorem debStore_txlog (u : Uid) (t : Time) : (debStore u t s).txlog = s.txlog := rfl
@[simp] theorem debStore_evlog (u : Uid) (t : Time) : (debStore u t s).evlog = s.evlog := rfl
@[simp] theorem debStore_clock (u : Uid) (t : Time) : (debStore u t s).clock = s.clock := rfl
@[simp] theorem debStore_result (u : Uid) (t : Time) : (debStore u t s).result = s.result := rfl
@[simp] theorem debStore_freeCount (u : Uid) (t : Time) : (debStore u t s).freeCount = s.freeCount := rfl
@[simp] theorem debStore_pending (u : Uid) (t : Time) : (debStore u t s).pending = s.pending := rfl

/-! `debFire` -/

@[simp] theorem debFire_tickCounter (u : Uid) (now : Time) : (debFire u now s).tickCounter = s.tickCounter := rfl
@[simp] theorem debFire_lastRequestTs (u : Uid) (now : Time) : (debFire u now s).lastRequestTs = s.lastRequestTs := rfl
@[simp] theorem debFire_syncState (u : Uid) (now : Time) : (debFire u now s).syncState = s.syncState := rfl
@[simp] theorem debFire_hdrIdx (u : Uid) (now : Time) : (debFire u now s).hdrIdx = s.hdrIdx := rfl
@[simp] theorem debFire_buf (u : Uid) (now : Time) : (debFire u now s).buf = s.buf := rfl
@[simp] theorem debFire_bufLen (u : Uid) (now : Time) : (debFire u now s).bufLen = s.bufLen := rfl
@[simp] theorem debFire_lastSeenUid (u : Uid) (now : Time) : (debFire u now s).lastSeenUid = Config.sentinel := rfl
@[simp] theorem debFire_lastSeenTs (u : Uid) (now : Time) : (debFire u now s).lastSeenTs = s.lastSeenTs := rfl
@[simp] theorem debFire_armed (u : Uid) (now : Time) : (debFire u now s).armed = false := rfl
@[simp] theorem debFire_hdrMismatchCnt (u : Uid) (now : Time) : (debFire u now s).hdrMismatchCnt = s.hdrMismatchCnt := rfl
@[simp] theorem debFire_bccFailCnt (u : Uid) (now : Time) : (debFire u now s).bccFailCnt = s.bccFailCnt := rfl
@[simp] theorem debFire_linkUp (u : Uid) (now : Time) : (debFire u now s).linkUp = s.linkUp := rfl
@[simp] theorem debFire_inTick (u : Uid) (now : Time) : (debFire u now s).inTick = s.inTick := rfl
@[simp] theorem debFire_cfg (u : Uid) (now : Time) : (debFire u now s).cfg = s.cfg := rfl
@[simp] theorem debFire_rxq (u : Uid) (now : Time) : (debFire u now s).rxq = s.rxq := rfl
@[simp] theorem debFire_txlog (u : Uid) (now : Time) : (debFire u now s).txlog = s.txlog := rfl
@[simp] theorem debFire_evlog (u : Uid) (now : Time) : (debFire u now s).evlog = s.evlog ++ [⟨u, now⟩] := rfl
@[simp] theorem debFire_clock (u : Uid) (now : Time) : (debFire u now s).clock = s.clock := rfl
@[simp] theorem debFire_result (u : Uid) (now : Time) : (debFire u now s).result = s.result := rfl
@[simp] theorem debFire_freeCount (u : Uid) (now : Time) : (debFire u now s).freeCount = s.freeCount := rfl
@[simp] theorem debFire_pending (u : Uid) (now : Time) : (debFire u now s).pending = s.pending := rfl

end Sys2Proof.Machine
end

