-- ==== Sys2Proof/Laws/Ops.lean ====
section
/-! SUPPORT. For each shared operation, once, what it can do: later proofs cite these lemmas and do not unfold the
operations again. -/

namespace Sys2Proof.Machine

open Sys2Proof.Safety (HasRoom)

/-! Transport. -/

/-- An arriving byte writes the receive queue and the count of free values, and nothing else (20_memory.md R63). -/
theorem rxPush_cases (s : State) (b : Byte) :
    (rxFull s = false ∧ rxPush s b = { s with rxq := s.rxq ++ [b] }) ∨
      (rxFull s = true ∧ rxPush s b = { s with rxq := overrunContents s, freeCount := s.freeCount + 1 }) := by
  unfold rxPush
  cases h : rxFull s <;> simp


theorem rxFull_of_room (s : State) (n : Nat) (h : HasRoom s (n + 1)) : rxFull s = false := by
  unfold rxFull
  cases hd : s.cfg.rxFifoDepth with
  | none => rfl
  | some d =>
    have := h d hd
    simp only [decide_eq_false_iff_not]
    omega

/-- With room, the bytes are appended in order. -/
theorem rxPushAll_of_room (bs : List Byte) (s : State) (h : HasRoom s bs.length) :
    rxPushAll bs s = { s with rxq := s.rxq ++ bs } := by
  induction bs generalizing s with
  | nil => simp [rxPushAll]
  | cons b bs ih =>
    have hb : rxPush s b = { s with rxq := s.rxq ++ [b] } := by
      simp [rxPush, rxFull_of_room s bs.length h]
    have room : HasRoom { s with rxq := s.rxq ++ [b] } bs.length := by
      intro d hd
      have := h d hd
      simp only [List.length_append, List.length_cons, List.length_nil] at this ⊢
      omega
    have := ih _ room
    simp only [rxPushAll, List.foldl_cons, hb] at this ⊢
    simpa using this

/-- Arriving bytes write the receive queue and the count of free values, and nothing else. -/
theorem rxPushAll_frame (bs : List Byte) (s : State) :
    rxPushAll bs s = { s with rxq := (rxPushAll bs s).rxq, freeCount := (rxPushAll bs s).freeCount } := by
  induction bs generalizing s with
  | nil => rfl
  | cons b bs ih =>
    have step : rxPushAll (b :: bs) s = rxPushAll bs (rxPush s b) := rfl
    rw [step, ih]
    rcases rxPush_cases s b with ⟨-, e⟩ | ⟨-, e⟩ <;> simp [e]

/-! Raising a fault. -/

/-- The whole effect of HEADER_MISMATCH (60_exceptions.md R241). -/
theorem raise_headerMismatch (s : State) :
    raise .headerMismatch s =
      { s with hdrMismatchCnt := if s.cfg.diag then s.hdrMismatchCnt + 1 else s.hdrMismatchCnt } := by
  cases h : s.cfg.diag <;> simp [raise, h]

/-- The whole effect of CHECKSUM_MISMATCH (60_exceptions.md R242). -/
theorem raise_checksumMismatch (s : State) :
    raise .checksumMismatch s =
      { s with bccFailCnt := if s.cfg.diag then s.bccFailCnt + 1 else s.bccFailCnt } := by
  cases h : s.cfg.diag <;> simp [raise, h]

/-- TRANSPORT_UNDERRUN has no effect (60_exceptions.md R243). -/
@[simp] theorem raise_transportUnderrun (s : State) : raise .transportUnderrun s = s := rfl

/-! The debouncer. -/

/-- DEB has two outcomes (45_debounce.md R217). -/
theorem deb_cases (u : Uid) (t : Time) (s : State) :
    ((u ≠ s.lastSeenUid ∨ windowExpired t s = true) ∧ deb u t s = debStore u t s) ∨
      ((u = s.lastSeenUid ∧ windowExpired t s = false) ∧ deb u t s = debFire u t s) := by
  unfold deb
  by_cases hu : u = s.lastSeenUid <;> cases hw : windowExpired t s <;> simp [hu]

/-! The synchronizer. -/

/-- RXB.SEEK has three outcomes (42_frame_sync.md R164, R165, R166). -/
theorem rxbSeek_cases (b : Byte) (s : State) :
    (b = hdrByte s.cfg s.hdrIdx ∧ (∃ h : s.hdrIdx.val < 3,
        rxbSeek b s = { s with hdrIdx := ⟨s.hdrIdx.val + 1, Nat.succ_lt_succ h⟩ })) ∨
      (b = hdrByte s.cfg s.hdrIdx ∧ s.hdrIdx = 3 ∧
        rxbSeek b s =
          { s with buf := seedHeader s.cfg s.buf, bufLen := 4, hdrIdx := 0, syncState := .accumulating }) ∨
      (b ≠ hdrByte s.cfg s.hdrIdx ∧
        rxbSeek b s =
          { s with
            hdrIdx := 0
            hdrMismatchCnt := if s.cfg.diag then s.hdrMismatchCnt + 1 else s.hdrMismatchCnt }) := by
  unfold rxbSeek
  by_cases hb : b = hdrByte s.cfg s.hdrIdx
  · by_cases h : s.hdrIdx.val < 3
    · exact .inl ⟨hb, h, by simp [hb, h]⟩
    · have h3 : s.hdrIdx = 3 := by
        have := s.hdrIdx.isLt
        apply Fin.ext
        have e3 : ((3 : Fin 4) : Nat) = 3 := rfl
        omega
      exact .inr (.inl ⟨hb, h3, by simp only [if_pos hb, dif_neg h]⟩)
  · exact .inr (.inr ⟨hb, by simp only [if_neg hb, raise_headerMismatch]⟩)

theorem complete_eq (now : Time) (s : State) :
    complete now s =
      if bccAccepts s.buf.frame = true then deb (uidField s.buf.frame) now (resetSync s)
      else raise .checksumMismatch (resetSync s) := rfl

/-- COMPLETE has two outcomes (42_frame_sync.md R170): the debouncer runs on the frame's UID, or the frame is dropped. -/
theorem complete_cases (now : Time) (s : State) :
    (bccAccepts s.buf.frame = true ∧ complete now s = deb (uidField s.buf.frame) now (resetSync s)) ∨
      (bccAccepts s.buf.frame = false ∧
        complete now s =
          { resetSync s with bccFailCnt := if s.cfg.diag then s.bccFailCnt + 1 else s.bccFailCnt }) := by
  rw [complete_eq]
  by_cases h : bccAccepts s.buf.frame = true
  · exact .inl ⟨h, if_pos h⟩
  · exact .inr ⟨Bool.eq_false_iff.mpr h, by rw [if_neg h, raise_checksumMismatch]; rfl⟩

/-- RXB.ACC has two outcomes (42_frame_sync.md R163, R169): one more byte waits, or the frame is complete. -/
theorem rxbAcc_cases (b : Byte) (now : Time) (s : State) :
    (∃ h : s.bufLen.val + 1 < Config.frameLen,
        rxbAcc b now s =
          { s with buf := s.buf.write s.bufLen.val b, bufLen := ⟨s.bufLen.val + 1, h⟩ }) ∨
      (s.bufLen = 25 ∧ rxbAcc b now s = complete now { s with buf := s.buf.write 25 b }) := by
  unfold rxbAcc
  by_cases h : s.bufLen.val + 1 < Config.frameLen
  · exact .inl ⟨h, by simp only [dif_pos h]⟩
  · have e25 : ((25 : Fin 26) : Nat) = 25 := rfl
    have hl : s.bufLen = 25 := by
      have := s.bufLen.isLt
      have hc : Config.frameLen = 26 := rfl
      apply Fin.ext
      omega
    refine .inr ⟨hl, ?_⟩
    simp only [dif_neg h]
    rw [hl]
    rfl

/-- What a received byte reads and writes lies in S3 to S11, the configuration and `evlog` (40_tick_gate.md R129): it
runs alike whatever stands in all other fields, and leaves them. -/
def withOutside (a s : State) : State :=
  { s with
    tickCounter := a.tickCounter, lastRequestTs := a.lastRequestTs, linkUp := a.linkUp, inTick := a.inTick,
    rxq := a.rxq, txlog := a.txlog, clock := a.clock, result := a.result, freeCount := a.freeCount,
    pending := a.pending }

theorem deb_outside (u : Uid) (t : Time) (a s : State) :
    deb u t (withOutside a s) = withOutside a (deb u t s) := by
  have hw : windowExpired t (withOutside a s) = windowExpired t s := rfl
  have hu : (withOutside a s).lastSeenUid = s.lastSeenUid := rfl
  unfold deb
  rw [hw, hu]
  split <;> rfl

theorem complete_outside (now : Time) (a s : State) :
    complete now (withOutside a s) = withOutside a (complete now s) := by
  have hf : (withOutside a s).buf.frame = s.buf.frame := rfl
  have hr : resetSync (withOutside a s) = withOutside a (resetSync s) := rfl
  rw [complete_eq, complete_eq, hf, hr]
  by_cases h : bccAccepts s.buf.frame = true
  · rw [if_pos h, if_pos h]
    exact deb_outside _ _ _ _
  · rw [if_neg h, if_neg h, raise_checksumMismatch, raise_checksumMismatch]
    rfl

theorem rxByte_outside (b : Byte) (now : Time) (a s : State) :
    rxByte b now (withOutside a s) = withOutside a (rxByte b now s) := by
  have hs : (withOutside a s).syncState = s.syncState := rfl
  unfold rxByte
  rw [hs]
  cases s.syncState with
  | seekingHeader =>
    have hb : hdrByte (withOutside a s).cfg (withOutside a s).hdrIdx = hdrByte s.cfg s.hdrIdx := rfl
    have hi : (withOutside a s).hdrIdx.val = s.hdrIdx.val := rfl
    simp only [rxbSeek, hb, hi, raise_headerMismatch]
    split
    · split <;> rfl
    · rfl
  | accumulating =>
    show rxbAcc b now (withOutside a s) = withOutside a (rxbAcc b now s)
    have hl : (withOutside a s).bufLen = s.bufLen := rfl
    rcases rxbAcc_cases b now s with ⟨h, e⟩ | ⟨h, e⟩
    · rcases rxbAcc_cases b now (withOutside a s) with ⟨_, e'⟩ | ⟨h', -⟩
      · rw [e, e']
        rfl
      · rw [hl] at h'
        rw [h'] at h
        exact absurd h (by decide)
    · rcases rxbAcc_cases b now (withOutside a s) with ⟨h', -⟩ | ⟨-, e'⟩
      · rw [hl, h] at h'
        exact absurd h' (by decide)
      · have q : ({ withOutside a s with buf := (withOutside a s).buf.write 25 b } : State) =
            withOutside a { s with buf := s.buf.write 25 b } := rfl
        rw [e, e', q, complete_outside]

/-- A received byte leaves every field outside S3 to S11 and `evlog` as it is, and the configuration. -/
theorem rxByte_frame (b : Byte) (now : Time) (s : State) :
    withOutside s (rxByte b now s) = rxByte b now s ∧ (rxByte b now s).cfg = s.cfg := by
  constructor
  · have := rxByte_outside b now s s
    have e : withOutside s s = s := rfl
    rw [e] at this
    exact this.symm
  · unfold rxByte
    cases s.syncState with
    | seekingHeader =>
      rcases rxbSeek_cases b s with ⟨-, _, e⟩ | ⟨-, -, e⟩ | ⟨-, e⟩ <;> simp [e]
    | accumulating =>
      have hc : ∀ s : State, (complete now s).cfg = s.cfg := by
        intro s
        rcases complete_cases now s with ⟨-, e⟩ | ⟨-, e⟩
        · rcases deb_cases (uidField s.buf.frame) now (resetSync s) with ⟨-, e'⟩ | ⟨-, e'⟩ <;> simp [e, e']
        · simp [e]
      rcases rxbAcc_cases b now s with ⟨_, e⟩ | ⟨-, e⟩ <;> simp [e, hc]

/-! DRAIN. -/

/-- The bytes of a queue run one after the other, oldest first. -/
def receiveAll (now : Time) (bs : List Byte) (s : State) : State := bs.foldl (fun t b => rxByte b now t) s

@[simp] theorem receiveAll_nil (now : Time) (s : State) : receiveAll now [] s = s := rfl

@[simp] theorem receiveAll_cons (now : Time) (b : Byte) (bs : List Byte) (s : State) :
    receiveAll now (b :: bs) s = receiveAll now bs (rxByte b now s) := rfl

theorem receiveAll_append (now : Time) (bs cs : List Byte) (s : State) :
    receiveAll now (bs ++ cs) s = receiveAll now cs (receiveAll now bs s) := by
  simp [receiveAll, List.foldl_append]

theorem receiveAll_outside (now : Time) (bs : List Byte) (a s : State) :
    receiveAll now bs (withOutside a s) = withOutside a (receiveAll now bs s) := by
  induction bs generalizing s with
  | nil => rfl
  | cons b bs ih => simp only [receiveAll_cons, rxByte_outside, ih]

theorem receiveAll_frame (now : Time) (bs : List Byte) (s : State) :
    withOutside s (receiveAll now bs s) = receiveAll now bs s ∧ (receiveAll now bs s).cfg = s.cfg := by
  constructor
  · have := receiveAll_outside now bs s s
    have e : withOutside s s = s := rfl
    rw [e] at this
    exact this.symm
  · induction bs generalizing s with
    | nil => rfl
    | cons b bs ih => rw [receiveAll_cons, ih, (rxByte_frame b now s).2]

theorem rxByte_setRxq (b : Byte) (now : Time) (q : List Byte) (s : State) :
    rxByte b now { s with rxq := q } = { rxByte b now s with rxq := q } := by
  have h1 := rxByte_outside b now { s with rxq := q } s
  have e : withOutside { s with rxq := q } s = { s with rxq := q } := rfl
  rw [e] at h1
  rw [h1, ← (rxByte_frame b now s).1]
  rfl

theorem drainLoop_eq (now : Time) (q : List Byte) (s : State) (h : s.rxq = q) :
    drainLoop now q.length s = receiveAll now q { s with rxq := [] } := by
  induction q generalizing s with
  | nil =>
    cases s
    simp only at h
    subst h
    rfl
  | cons b q ih =>
    have h1 : rxAvailable s = true := by simp [rxAvailable, h]
    have h2 : rxRead s = (some b, { s with rxq := q }) := by simp [rxRead, h]
    simp only [List.length_cons, drainLoop, h1, if_true, h2]
    rw [ih _ (by rw [rxByte_setRxq])]
    simp only [receiveAll_cons, rxByte_setRxq]

/-- DRAIN takes every waiting byte in arrival order and leaves the queue empty (42_frame_sync.md R160). -/
theorem drain_eq (now : Time) (s : State) : drain now s = receiveAll now s.rxq { s with rxq := [] } := by
  unfold drain
  simp only [raise_transportUnderrun, ite_self]
  exact drainLoop_eq now s.rxq s rfl

@[simp] theorem drain_rxq (now : Time) (s : State) : (drain now s).rxq = [] := by
  rw [drain_eq, ← (receiveAll_frame now s.rxq { s with rxq := [] }).1]
  rfl

/-! The scheduler and the TICK. -/

/-- SCHED has two outcomes (41_request_scheduler.md R140). -/
theorem sched_cases (now : Time) (s : State) :
    (requestDue now s = true ∧ sched now s = { txWrite now s with lastRequestTs := now }) ∨
      (requestDue now s = false ∧ sched now s = s) := by
  unfold sched
  cases h : requestDue now s <;> simp

/-- A TICK that is not refused is skipped or processed (40_tick_gate.md R121, R126). -/
theorem tickBody_cases (now : Time) (s : State) :
    (gatePasses (countTick s) = false ∧ tickBody now s = { countTick s with inTick := false }) ∨
      (gatePasses (countTick s) = true ∧
        tickBody now s =
          { drain now (sched now { countTick s with inTick := true, clock := now }) with inTick := false }) := by
  have e : gate { s with inTick := true } = (gatePasses (countTick s), { countTick s with inTick := true }) := rfl
  unfold tickBody
  rw [e]
  cases h : gatePasses (countTick s)
  · exact .inl ⟨rfl, rfl⟩
  · exact .inr ⟨rfl, rfl⟩

end Sys2Proof.Machine
end

