-- ==== Sys2Proof/Laws/Quantities.lean ====
section
/-! SUPPORT. The machine's own functions against the spec's quantities of Sys2Proof/Safety.lean. -/

namespace Sys2Proof.Machine

open Sys2Proof.Safety

theorem hdrByte_eq (c : Params) (k : Fin 4) : hdrByte c k = headerByte c k.val := by
  fin_cases k <;> rfl

theorem header_eq (c : Params) : header c = [headerByte c 0, headerByte c 1, headerByte c 2, headerByte c 3] := rfl

theorem elapsed_toNat (a b : Time) : (elapsed a b).toNat = elapsedMs a b := by
  have := b.isLt
  simp only [elapsed, elapsedMs, BitVec.toNat_sub]
  congr 1
  omega

theorem requestDue_iff (now : Time) (s : State) :
    requestDue now s = true ↔ s.cfg.reqIntervalMs.toNat < elapsedMs now s.lastRequestTs := by
  simp [requestDue, exceeds, elapsed_toNat]

theorem windowExpired_iff (t : Time) (s : State) :
    windowExpired t s = true ↔ s.cfg.debounceWindowMs.toNat < elapsedMs t s.lastSeenTs := by
  simp [windowExpired, exceeds, elapsed_toNat]

theorem gatePasses_iff (s : State) : gatePasses (countTick s) = true ↔ NextTickProcessed s := by
  unfold gatePasses NextTickProcessed
  rw [decide_eq_true_eq]
  rfl

theorem frame_eq_cells (s : State) : s.buf.frame = cells s := rfl

theorem uidField_eq (f : Frame) : uidField f = uidOf f := rfl

/-- A frame, byte by byte. -/
theorem frame_toList (f : Frame) : f.toList = (List.range 26).map fun k => f.toList.getD k 0 := by
  apply List.ext_getElem
  · simp
  · intro i h _
    simp at h
    simp [h]

/-- The block check character of a frame is the XOR of its bytes 1 to 23 (43_checksum.md R190). -/
theorem bcc_frame (f : Frame) : bcc f.toList = xorOfBody f := by
  have h := frame_toList f
  generalize hg : (fun k => f.toList.getD k 0) = g at h
  have hx : xorOfBody f = ((List.range 23).map fun k => g (k + 1)).foldl (· ^^^ ·) 0 := by
    rw [← hg]
    rfl
  rw [hx, h]
  simp [bcc, List.range_succ]

theorem bccAccepts_iff (f : Frame) : bccAccepts f = true ↔ ChecksumHolds f := by
  unfold bccAccepts ChecksumHolds
  rw [bcc_frame, beq_iff_eq]
  exact eq_comm

/-- DEB opens a candidate or fires, by the spec's test (45_debounce.md R217, R231). -/
theorem deb_of_opens (u : Uid) (t : Time) (s : State) (h : OpensCandidate u t s) : deb u t s = debStore u t s := by
  rcases deb_cases u t s with ⟨_, e⟩ | ⟨⟨hu, hw⟩, _⟩
  · exact e
  · rcases h with h | h
    · exact absurd hu h
    · rw [(windowExpired_iff t s).mpr h] at hw
      exact absurd hw (by decide)

theorem deb_of_not_opens (u : Uid) (t : Time) (s : State) (h : ¬ OpensCandidate u t s) :
    deb u t s = debFire u t s := by
  rcases deb_cases u t s with ⟨hc, _⟩ | ⟨_, e⟩
  · refine absurd ?_ h
    rcases hc with hc | hc
    · exact .inl hc
    · exact .inr ((windowExpired_iff t s).mp hc)
  · exact e

end Sys2Proof.Machine
end

