-- ==== Sys2Proof/Laws/Frames.lean ====
section
/-! SUPPORT. How a response frame is put together byte by byte (42_frame_sync.md R162 to R171): the header, the body, the
26th byte; and the 26 bytes of a RESP. -/

namespace Sys2Proof.Machine

open Sys2Proof.Safety

/-- A byte in `SEEKING_HEADER` (10_state.md R27). -/
theorem rxByte_seeking (b : Byte) (now : Time) (s : State) (h : s.syncState = .seekingHeader) :
    rxByte b now s = rxbSeek b s := by
  simp [rxByte, h]

/-- A byte in `ACCUMULATING` (10_state.md R27). -/
theorem rxByte_accumulating (b : Byte) (now : Time) (s : State) (h : s.syncState = .accumulating) :
    rxByte b now s = rxbAcc b now s := by
  simp [rxByte, h]

/-- A frame half received: the cells `m`, of which the first `n` belong to the frame. -/
def parkedAt (m : Memory) (n : Fin 26) (s : State) : State :=
  { s with buf := m, bufLen := n, hdrIdx := 0, syncState := .accumulating }

/-- The header, from the start of a search. -/
theorem receiveAll_header (now : Time) (s : State) (h : s.syncState = .seekingHeader) (hi : s.hdrIdx = 0) :
    receiveAll now (header s.cfg) s = parkedAt (seedHeader s.cfg s.buf) 4 s := by
  simp [header, rxByte_seeking, rxbSeek, h, hi, parkedAt]

/-- One byte of the body, but for the last. -/
theorem rxbAcc_body (b : Byte) (now : Time) (s : State) (h : s.bufLen.val + 1 < 26) :
    rxbAcc b now s = { s with buf := s.buf.write s.bufLen.val b, bufLen := ⟨s.bufLen.val + 1, h⟩ } := by
  rcases rxbAcc_cases b now s with ⟨_, e⟩ | ⟨e, _⟩
  · exact e
  · rw [e] at h
    exact absurd h (by decide)

/-- The last byte of the body. -/
theorem rxbAcc_last (b : Byte) (now : Time) (s : State) (h : s.bufLen = 25) :
    rxbAcc b now s = complete now { s with buf := s.buf.write 25 b } := by
  rcases rxbAcc_cases b now s with ⟨hlt, _⟩ | ⟨_, e⟩
  · rw [h] at hlt
    exact absurd hlt (by decide)
  · exact e

/-- The body, but for the last byte of a frame: the bytes stand in order behind what was there. -/
theorem receiveAll_body (now : Time) (bs : List Byte) (s : State) (m : Memory) (n : Fin 26)
    (hw : Memory.wf m = true) (hl : n.val + bs.length < 26) :
    ∃ m', receiveAll now bs (parkedAt m n s) = parkedAt m' ⟨n.val + bs.length, hl⟩ s ∧ Memory.wf m' = true ∧
      (∀ k, k < n.val → Memory.read m' k = Memory.read m k) ∧
      (∀ k (h : k < bs.length), Memory.read m' (n.val + k) = bs[k]) ∧
      ∀ k, n.val + bs.length ≤ k → Memory.read m' k = Memory.read m k := by
  induction bs generalizing m n with
  | nil => exact ⟨m, rfl, hw, by simp, by simp, by simp⟩
  | cons b bs ih =>
    simp only [List.length_cons] at hl
    have hlen : n.val + 1 < 26 := by omega
    have hw' : Memory.wf (Memory.write m n.val b) = true := Memory.wf_write _ _ _ n.isLt hw
    obtain ⟨m', e, hm, below, inside, above⟩ :=
      ih (Memory.write m n.val b) ⟨n.val + 1, hlen⟩ hw' (by simp only; omega)
    have first : rxByte b now (parkedAt m n s) = parkedAt (Memory.write m n.val b) ⟨n.val + 1, hlen⟩ s := by
      rw [rxByte_accumulating b now _ rfl, rxbAcc_body b now _ hlen]
      rfl
    refine ⟨m', ?_, hm, ?_, ?_, ?_⟩
    · rw [receiveAll_cons, first, e]
      congr 1
      apply Fin.ext
      simp only [List.length_cons]
      omega
    · intro k hk
      rw [below k (by simp only; omega), Memory.read_write _ _ _ _ hw, if_neg (by omega)]
    · intro k hk
      cases k with
      | zero =>
        rw [Nat.add_zero, below n.val (by simp), Memory.read_write _ _ _ _ hw]
        simp
      | succ k =>
        simp only [List.length_cons] at hk
        have := inside k (by omega)
        simp only [List.getElem_cons_succ]
        rw [← this]
        congr 1
        simp only
        omega
    · intro k hk
      simp only [List.length_cons] at hk
      rw [above k (by simp only; omega), Memory.read_write _ _ _ _ hw, if_neg (by omega)]

/-- A whole frame that starts with the header, from the start of a search: COMPLETE runs on exactly its 26 bytes. -/
theorem receiveAll_frame26 (now : Time) (s : State) (f : Frame) (h : s.syncState = .seekingHeader)
    (hi : s.hdrIdx = 0) (hw : Memory.wf s.buf = true) (hf : ∀ k (_ : k < 4), f[k] = headerByte s.cfg k) :
    ∃ m, Memory.wf m = true ∧ Memory.frame m = f ∧ (∀ k (_ : k < 26), Memory.read m k = f[k]) ∧
      receiveAll now f.toList s =
        complete now (parkedAt m 25 s) := by
  have split : f.toList = header s.cfg ++ (((f.toList.drop 4).take 21) ++ [f[25]]) := by
    rw [header_eq]
    apply List.ext_getElem
    · simp
    · intro k h1 _
      simp only [Vector.length_toList] at h1
      by_cases h4 : k < 4
      · have := hf k h4
        rw [List.getElem_append_left (by simpa using h4)]
        simp only [Vector.getElem_toList, this]
        rcases (by omega : k = 0 ∨ k = 1 ∨ k = 2 ∨ k = 3) with rfl | rfl | rfl | rfl <;> rfl
      · rw [List.getElem_append_right (by simpa using (by omega : 4 ≤ k))]
        simp only [List.length_cons, List.length_nil, Nat.zero_add, Nat.reduceAdd]
        by_cases h25 : k < 25
        · rw [List.getElem_append_left (by simp; omega)]
          simp only [List.getElem_take, List.getElem_drop, Vector.getElem_toList]
          congr 1
          omega
        · have : k = 25 := by omega
          subst this
          rw [List.getElem_append_right (by simp)]
          simp
  have e1 := receiveAll_header now s h hi
  have hw4 := seedHeader_wf s.cfg s.buf hw
  have l21 : ((f.toList.drop 4).take 21).length = 21 := by simp
  have v4 : ((4 : Fin 26) : Nat) = 4 := rfl
  obtain ⟨m, e2, hm, below, inside, above⟩ :=
    receiveAll_body now ((f.toList.drop 4).take 21) s (seedHeader s.cfg s.buf) 4 hw4 (by omega)
  have e25 : (⟨((4 : Fin 26) : Nat) + ((f.toList.drop 4).take 21).length, by omega⟩ : Fin 26) = 25 := by
    apply Fin.ext
    simp only [l21, v4]
    rfl
  have reads : ∀ k (_ : k < 26), Memory.read (m.write 25 f[25]) k = f[k] := by
    intro k hk
    rw [Memory.read_write _ _ _ _ hm]
    by_cases h25 : k = 25
    · subst h25
      simp
    · rw [if_neg h25]
      by_cases h4 : k < 4
      · rw [below k (by simpa using h4), seedHeader_read _ _ hw, dif_pos h4, hdrByte_eq]
        exact (hf k h4).symm
      · have := inside (k - 4) (by omega)
        simp only [v4, show 4 + (k - 4) = k by omega] at this
        rw [this]
        simp [show 4 + (k - 4) = k by omega]
  refine ⟨m.write 25 f[25], Memory.wf_write _ _ _ (by decide) hm, ?_, reads, ?_⟩
  · apply Vector.ext
    intro k hk
    rw [Memory.frame_getElem, reads k hk]
  · rw [split, receiveAll_append, receiveAll_append, e1, e2, e25, receiveAll_cons, receiveAll_nil,
      rxByte_accumulating _ _ _ rfl, rxbAcc_last _ _ _ rfl]
    rfl

/-- The bytes of a RESP as a frame: header, UID, payload, checksum, terminator (30_encoding.md R97, R98). -/
theorem respBytes_frame (c : Params) (u : Uid) (p : Payload) (e : Byte) :
    ∃ f : Frame, f.toList = respBytes c u p e ∧ (∀ k (_ : k < 4), f[k] = headerByte c k) ∧ uidOf f = u ∧
      (∀ k (_ : k < 16), f[8 + k] = p[k]) ∧ ChecksumHolds f ∧ f[25] = e := by
  have hlen : (respBytes c u p e).length = 26 := by simp [respBytes, header, uidBytes]
  refine ⟨⟨⟨respBytes c u p e⟩, hlen⟩, rfl, ?_, ?_, ?_, ?_, ?_⟩
  · intro k hk
    rcases (by omega : k = 0 ∨ k = 1 ∨ k = 2 ∨ k = 3) with rfl | rfl | rfl | rfl <;> rfl
  · rfl
  · intro k hk
    have : (respBytes c u p e)[8 + k]'(by omega) = p[k] := by
      simp only [respBytes, header, uidBytes]
      rw [List.getElem_append_left (by simp; omega), List.getElem_append_right (by simp)]
      simp
    exact this
  · rw [ChecksumHolds, ← bcc_frame]
    have e24 : (respBytes c u p e)[24]'(by omega) = bcc (header c ++ uidBytes u ++ p.toList ++ [0, e]) := by
      simp only [respBytes]
      rw [List.getElem_append_right (by simp [header, uidBytes])]
      simp [header, uidBytes]
    have e1 : bcc (respBytes c u p e) = bcc (header c ++ uidBytes u ++ p.toList ++ [0, e]) := by
      simp [respBytes, bcc, header, uidBytes]
    exact e24.trans e1.symm
  · have : (respBytes c u p e)[25]'(by omega) = e := by
      simp only [respBytes]
      rw [List.getElem_append_right (by simp [header, uidBytes])]
      simp [header, uidBytes]
    exact this

end Sys2Proof.Machine
end

