-- ==== Sys2Proof/Laws/Exec.lean ====
section
/-! SUPPORT. What `exec` answers for each operation that no state refuses, runs of several operations, and what COMPLETE,
DRAIN, SCHED and a TICK leave alone. -/

namespace Sys2Proof.Machine

open Sys2Proof.Safety

/-! One equation for each operation: cite these and do not unfold `exec`. -/

theorem exec_rxArrive (b : Byte) (s : State) : exec (.rxArrive b) s = .next (rxPush s b) := rfl
theorem exec_gate (s : State) :
    exec .gate s = .next { countTick s with result := .gate (gatePasses (countTick s)) } := rfl
theorem exec_sched (now : Time) (s : State) : exec (.sched now) s = .next (sched now s) := rfl
theorem exec_drain (now : Time) (s : State) : exec (.drain now) s = .next (drain now s) := rfl
theorem exec_rxbSeek (b : Byte) (s : State) : exec (.rxbSeek b) s = .next (rxbSeek b s) := rfl
theorem exec_rxbAcc (b : Byte) (now : Time) (s : State) : exec (.rxbAcc b now) s = .next (rxbAcc b now s) := rfl
theorem exec_complete (now : Time) (s : State) : exec (.complete now) s = .next (complete now s) := rfl
theorem exec_bccChk (f : Frame) (s : State) :
    exec (.bccChk f) s = .next { s with result := .bccChk (bccAccepts f) } := rfl
theorem exec_uidx (f : Frame) (s : State) : exec (.uidx f) s = .next { s with result := .uidx (uidField f) } := rfl
theorem exec_debStore (u : Uid) (t : Time) (s : State) : exec (.debStore u t) s = .next (debStore u t s) := rfl
theorem exec_debFire (u : Uid) (s : State) : exec (.debFire u) s = .next (debFire u s.clock s) := rfl
theorem exec_pollRead (s : State) : exec .pollRead s = .next (txWrite s.clock s) := rfl
theorem exec_resp (u : Uid) (p : Payload) (e : Byte) (s : State) :
    exec (.resp u p e) s = .next (rxPushAll (respBytes s.cfg u p e) s) := rfl

/-- A TICK that is not refused (40_tick_gate.md R121). -/
theorem exec_tick (now : Time) (s : State) (h : s.linkUp = true) (h' : s.inTick = false) :
    exec (.tick now) s = .next (tickBody now s) := by
  simp [exec, execTick, h, h']

/-- A TICK that has a next state was not refused. -/
theorem exec_tick_next (now : Time) (s t : State) (h : exec (.tick now) s = .next t) :
    s.linkUp = true ∧ s.inTick = false ∧ t = tickBody now s := by
  cases hl : s.linkUp <;> cases hi : s.inTick <;> simp [exec, execTick, hl, hi] at h
  exact ⟨rfl, rfl, h.symm⟩

/-- A SETUP that has a next state (40_tick_gate.md R120). -/
theorem exec_setup_next (s t : State) (h : exec .setup s = .next t) :
    s.inTick = false ∧ t = { s with linkUp := true } := by
  cases hi : s.inTick <;> simp [exec, execSetup, hi] at h
  exact ⟨rfl, h.symm⟩

/-- A RESET that has a next state (70_reset_and_hazards.md R270). -/
theorem exec_reset_next (d : Nat) (interval : Time) (s t : State) (h : exec (.reset d interval) s = .next t) :
    s.inTick = false ∧ ∃ hd : 0 < d, t = construct ⟨d, hd⟩ interval s := by
  cases hi : s.inTick with
  | true => simp [exec, execReset, hi] at h
  | false =>
    by_cases hd : 0 < d
    · simp only [exec, execReset, hi, hd, dif_pos, Bool.false_eq_true, if_false, Host.Outcome.next.injEq] at h
      exact ⟨rfl, hd, h.symm⟩
    · simp [exec, execReset, hi, hd] at h

/-! Runs. -/

theorem execAll_cons (i : Instr) (is : List Instr) (s t : State) (h : exec i s = .next t) :
    execAll (i :: is) s = execAll is t := by
  simp only [execAll, h]

theorem execAll_append (xs ys : List Instr) (s t : State) (h : execAll xs s = .next t) :
    execAll (xs ++ ys) s = execAll ys t := by
  induction xs generalizing s with
  | nil =>
    cases h
    rfl
  | cons x xs ih =>
    simp only [execAll, List.cons_append] at h ⊢
    cases hx : exec x s with
    | next u =>
      rw [hx] at h
      exact ih u h
    | fault f =>
      rw [hx] at h
      cases h
    | refused r =>
      rw [hx] at h
      cases h

/-! What an operation leaves alone. -/

/-- RXB.SEEK leaves every field outside S3 to S11 and `evlog` as it is, and the configuration. -/
theorem rxbSeek_frame (b : Byte) (s : State) : withOutside s (rxbSeek b s) = rxbSeek b s ∧ (rxbSeek b s).cfg = s.cfg := by
  rcases rxbSeek_cases b s with ⟨_, _, e⟩ | ⟨_, _, e⟩ | ⟨_, e⟩ <;> rw [e] <;> exact ⟨rfl, rfl⟩

/-- COMPLETE leaves every field outside S3 to S11 and `evlog` as it is, and the configuration. -/
theorem complete_frame (now : Time) (s : State) :
    withOutside s (complete now s) = complete now s ∧ (complete now s).cfg = s.cfg := by
  constructor
  · have h := complete_outside now s s
    have e : withOutside s s = s := rfl
    rw [e] at h
    exact h.symm
  · rcases complete_cases now s with ⟨-, e⟩ | ⟨-, e⟩
    · rcases deb_cases (uidField s.buf.frame) now (resetSync s) with ⟨-, e'⟩ | ⟨-, e'⟩ <;> simp [e, e']
    · simp [e]

/-- RXB.ACC leaves every field outside S3 to S11 and `evlog` as it is, and the configuration. -/
theorem rxbAcc_frame (b : Byte) (now : Time) (s : State) :
    withOutside s (rxbAcc b now s) = rxbAcc b now s ∧ (rxbAcc b now s).cfg = s.cfg := by
  rcases rxbAcc_cases b now s with ⟨_, e⟩ | ⟨-, e⟩
  · rw [e]
    exact ⟨rfl, rfl⟩
  · rw [e]
    have h := complete_frame now { s with buf := s.buf.write 25 b }
    generalize complete now { s with buf := s.buf.write 25 b } = t at h ⊢
    exact h

/-- DRAIN empties the queue and leaves every other field outside S3 to S11 and `evlog` as it is, and the configuration
(40_tick_gate.md R129). -/
theorem drain_frame (now : Time) (s : State) :
    withOutside { s with rxq := [] } (drain now s) = drain now s ∧ (drain now s).cfg = s.cfg := by
  rw [drain_eq]
  exact receiveAll_frame now s.rxq { s with rxq := [] }

/-- DRAIN runs alike whatever stands in a field it does not touch. -/
theorem drain_outside (now : Time) (a s : State) (h : a.rxq = s.rxq) :
    drain now (withOutside a s) = withOutside { a with rxq := [] } (drain now s) := by
  rw [drain_eq, drain_eq]
  have e : ({ withOutside a s with rxq := [] } : State) = withOutside { a with rxq := [] } { s with rxq := [] } := rfl
  have hq : (withOutside a s).rxq = s.rxq := h
  rw [e, hq, receiveAll_outside]

/-- SCHED does not read `in_tick`. -/
theorem sched_inTick (now : Time) (s : State) (b : Bool) :
    sched now { s with inTick := b } = { sched now s with inTick := b } := by
  have e : requestDue now { s with inTick := b } = requestDue now s := rfl
  unfold sched
  rw [e]
  split <;> rfl

/-- A TICK that is not refused counts, and keeps `link_up`, `in_tick`, the configuration and the packets that wait. -/
theorem tickBody_frame (now : Time) (s : State) :
    (tickBody now s).linkUp = s.linkUp ∧ (tickBody now s).inTick = false ∧
      (tickBody now s).tickCounter = s.tickCounter + 1 ∧ (tickBody now s).cfg = s.cfg ∧
      (tickBody now s).pending = s.pending := by
  rcases tickBody_cases now s with ⟨_, e⟩ | ⟨_, e⟩
  · rw [e]
    exact ⟨rfl, rfl, rfl, rfl, rfl⟩
  · rw [e]
    generalize hw : ({ countTick s with inTick := true, clock := now } : State) = w
    obtain ⟨hd, hc⟩ := drain_frame now (sched now w)
    have hs : (sched now w).linkUp = s.linkUp ∧ (sched now w).tickCounter = s.tickCounter + 1 ∧
        (sched now w).cfg = s.cfg ∧ (sched now w).pending = s.pending := by
      rcases sched_cases now w with ⟨_, e⟩ | ⟨_, e⟩ <;> rw [e, ← hw] <;> exact ⟨rfl, rfl, rfl, rfl⟩
    refine ⟨?_, rfl, ?_, hc.trans hs.2.2.1, ?_⟩
    · rw [← hd]
      exact hs.1
    · rw [← hd]
      exact hs.2.1
    · rw [← hd]
      exact hs.2.2.2

/-! Outputs. -/

/-- COMPLETE emits at most one event, tagged with its sample, and ends at the start of a search. -/
theorem complete_outputs (now : Time) (s : State) :
    ∃ es, (complete now s).evlog = s.evlog ++ es ∧ (∀ e ∈ es, e.now = now) ∧ es.length ≤ 1 ∧
      (complete now s).syncState = .seekingHeader ∧ (complete now s).hdrIdx = 0 ∧ (complete now s).bufLen = 0 ∧
      (complete now s).buf = s.buf := by
  rcases complete_cases now s with ⟨_, e⟩ | ⟨_, e⟩
  · rcases deb_cases (uidField s.buf.frame) now (resetSync s) with ⟨_, e'⟩ | ⟨_, e'⟩
    · rw [e, e']
      exact ⟨[], by simp, by simp, by simp, rfl, rfl, rfl, rfl⟩
    · rw [e, e']
      exact ⟨[⟨uidField s.buf.frame, now⟩], rfl, by simp, by simp, rfl, rfl, rfl, rfl⟩
  · rw [e]
    exact ⟨[], by simp, by simp, by simp, rfl, rfl, rfl, rfl⟩

end Sys2Proof.Machine
end

