-- ==== Sys2Proof/Laws/PerInstr.lean ====
section
/-! SUPPORT. What holds of each operation as syntax: the shape of its packet. -/

namespace Sys2Proof.Laws.Encoding

open Sys2Proof.Machine

/-- The packet of an operation has the shape its format asks for (30_encoding.md R92, R96, R100): a listed code with as
many argument bytes as the operation carries, for RESET with those of its divider before them, or the 15 or 26 bytes of a
wire frame. -/
def Statement (i : Instr) : Prop :=
  ∀ c : Params,
    match (encode c i).format with
    | .opcode8 =>
      ∃ code number args, (encode c i).bytes = code :: (number ++ args) ∧
        operandLength code.toNat = some args.length ∧
        ((number = [] ∧ code ≠ 0x00) ∨ ∃ d interval, i = .reset d interval ∧ code = 0x00 ∧ number = bytesOfNat d)
    | .pf15 => (encode c i).bytes.length = Config.pollLen
    | .rf26 => (encode c i).bytes.length = Config.frameLen

theorem reset (d : Nat) (interval : Time) : Statement (.reset d interval) := fun _ =>
  ⟨_, bytesOfNat d, bytesOfWord interval, rfl, rfl, .inr ⟨d, interval, rfl, rfl, rfl⟩⟩
theorem setup : Statement .setup := fun _ => ⟨_, [], _, rfl, rfl, .inl ⟨rfl, by decide⟩⟩
theorem tick (now : Time) : Statement (.tick now) := fun _ => ⟨_, [], _, rfl, rfl, .inl ⟨rfl, by decide⟩⟩
theorem rxArrive (b : Byte) : Statement (.rxArrive b) := fun _ => ⟨_, [], _, rfl, rfl, .inl ⟨rfl, by decide⟩⟩
theorem gate : Statement .gate := fun _ => ⟨_, [], _, rfl, rfl, .inl ⟨rfl, by decide⟩⟩
theorem sched (now : Time) : Statement (.sched now) := fun _ => ⟨_, [], _, rfl, rfl, .inl ⟨rfl, by decide⟩⟩
theorem drain (now : Time) : Statement (.drain now) := fun _ => ⟨_, [], _, rfl, rfl, .inl ⟨rfl, by decide⟩⟩
theorem rxbSeek (b : Byte) : Statement (.rxbSeek b) := fun _ => ⟨_, [], _, rfl, rfl, .inl ⟨rfl, by decide⟩⟩
theorem rxbAcc (b : Byte) (now : Time) : Statement (.rxbAcc b now) := fun _ => ⟨_, [], _, rfl, rfl, .inl ⟨rfl, by decide⟩⟩
theorem complete (now : Time) : Statement (.complete now) := fun _ => ⟨_, [], _, rfl, rfl, .inl ⟨rfl, by decide⟩⟩
theorem bccChk (f : Frame) : Statement (.bccChk f) := fun _ =>
  ⟨0x23, [], f.toList, rfl, by rw [Vector.length_toList]; rfl, .inl ⟨rfl, by decide⟩⟩
theorem uidx (f : Frame) : Statement (.uidx f) := fun _ =>
  ⟨0x24, [], f.toList, rfl, by rw [Vector.length_toList]; rfl, .inl ⟨rfl, by decide⟩⟩
theorem debStore (u : Uid) (t : Time) : Statement (.debStore u t) := fun _ => ⟨_, [], _, rfl, rfl, .inl ⟨rfl, by decide⟩⟩
theorem debFire (u : Uid) : Statement (.debFire u) := fun _ => ⟨_, [], _, rfl, rfl, .inl ⟨rfl, by decide⟩⟩
theorem pollRead : Statement .pollRead := fun _ => rfl
theorem resp (u : Uid) (p : Payload) (terminator : Byte) : Statement (.resp u p terminator) := fun c => by
  show (respBytes c u p terminator).length = Config.frameLen
  simp [respBytes, header, uidBytes]

end Sys2Proof.Laws.Encoding
end

