-- ==== Sys2Proof/Laws/Records.lean ====
section
/-! SUPPORT. What the operations make of the records no rule reads: the two logs (10_state.md R44), the flag `armed`
(R34) and the diagnostic counters (R38). Every operation puts its entries behind the old ones, and does the same
whatever `armed` and the counters hold. -/

namespace Sys2Proof.Machine

open Sys2Proof.Safety

/-! The logs: an operation on a state with the entries of `a` in front has them in front in the end. -/

/-- A state is its log entries behind no others. -/
@[simp] theorem afterLogs_withoutLogs (s : State) : afterLogs s (withoutLogs s) = s := by
  simp [afterLogs, withoutLogs]

/-- Putting entries in front twice. -/
@[simp] theorem afterLogs_afterLogs (a b s : State) : afterLogs a (afterLogs b s) = afterLogs (afterLogs a b) s := by
  simp [afterLogs]

theorem deb_afterLogs (u : Uid) (t : Time) (a s : State) : deb u t (afterLogs a s) = afterLogs a (deb u t s) := by
  have hw : windowExpired t (afterLogs a s) = windowExpired t s := rfl
  have hu : (afterLogs a s).lastSeenUid = s.lastSeenUid := rfl
  unfold deb
  rw [hw, hu]
  split
  · rfl
  · simp [debFire, presence, afterLogs, setArmed]

theorem complete_afterLogs (now : Time) (a s : State) :
    complete now (afterLogs a s) = afterLogs a (complete now s) := by
  have hf : (afterLogs a s).buf.frame = s.buf.frame := rfl
  have hr : resetSync (afterLogs a s) = afterLogs a (resetSync s) := rfl
  rw [complete_eq, complete_eq, hf, hr]
  by_cases h : bccAccepts s.buf.frame = true
  · rw [if_pos h, if_pos h]
    exact deb_afterLogs _ _ _ _
  · rw [if_neg h, if_neg h, raise_checksumMismatch, raise_checksumMismatch]
    rfl

theorem rxbSeek_afterLogs (b : Byte) (a s : State) : rxbSeek b (afterLogs a s) = afterLogs a (rxbSeek b s) := by
  have hb : hdrByte (afterLogs a s).cfg (afterLogs a s).hdrIdx = hdrByte s.cfg s.hdrIdx := rfl
  have hi : (afterLogs a s).hdrIdx.val = s.hdrIdx.val := rfl
  simp only [rxbSeek, hb, hi, raise_headerMismatch]
  split
  · split <;> rfl
  · rfl

theorem rxbAcc_afterLogs (b : Byte) (now : Time) (a s : State) :
    rxbAcc b now (afterLogs a s) = afterLogs a (rxbAcc b now s) := by
  have hl : (afterLogs a s).bufLen.val = s.bufLen.val := rfl
  by_cases h : s.bufLen.val + 1 < 26
  · rw [rxbAcc_body b now s h, rxbAcc_body b now (afterLogs a s) h]
    rfl
  · have h25 : s.bufLen = 25 := by
      apply Fin.ext
      have := s.bufLen.isLt
      show _ = 25
      omega
    rw [rxbAcc_last b now s h25, rxbAcc_last b now (afterLogs a s) h25, ← complete_afterLogs]
    rfl

theorem rxByte_afterLogs (b : Byte) (now : Time) (a s : State) :
    rxByte b now (afterLogs a s) = afterLogs a (rxByte b now s) := by
  cases h : s.syncState
  · rw [rxByte_seeking b now s h, rxByte_seeking b now (afterLogs a s) h, rxbSeek_afterLogs]
  · rw [rxByte_accumulating b now s h, rxByte_accumulating b now (afterLogs a s) h, rxbAcc_afterLogs]

theorem receiveAll_afterLogs (now : Time) (bs : List Byte) (a s : State) :
    receiveAll now bs (afterLogs a s) = afterLogs a (receiveAll now bs s) := by
  induction bs generalizing s with
  | nil => rfl
  | cons b bs ih => simp only [receiveAll_cons, rxByte_afterLogs, ih]

theorem drain_afterLogs (now : Time) (a s : State) : drain now (afterLogs a s) = afterLogs a (drain now s) := by
  rw [drain_eq, drain_eq, ← receiveAll_afterLogs]
  rfl

theorem txWrite_afterLogs (now : Time) (a s : State) : txWrite now (afterLogs a s) = afterLogs a (txWrite now s) := by
  simp [txWrite, afterLogs]

theorem sched_afterLogs (now : Time) (a s : State) : sched now (afterLogs a s) = afterLogs a (sched now s) := by
  have h : requestDue now (afterLogs a s) = requestDue now s := rfl
  unfold sched
  rw [h, txWrite_afterLogs]
  split <;> rfl

theorem tickBody_afterLogs (now : Time) (a s : State) :
    tickBody now (afterLogs a s) = afterLogs a (tickBody now s) := by
  have hg : gatePasses (countTick (afterLogs a s)) = gatePasses (countTick s) := rfl
  rcases tickBody_cases now s with ⟨h, e⟩ | ⟨h, e⟩ <;>
    rcases tickBody_cases now (afterLogs a s) with ⟨h', e'⟩ | ⟨h', e'⟩
  · rw [e, e']
    rfl
  · rw [hg, h] at h'
    cases h'
  · rw [hg, h] at h'
    cases h'
  · rw [e, e']
    have q : ({ countTick (afterLogs a s) with inTick := true, clock := now } : State) =
        afterLogs a { countTick s with inTick := true, clock := now } := rfl
    rw [q, sched_afterLogs, drain_afterLogs]
    generalize drain now _ = t
    rfl

theorem rxPush_afterLogs (b : Byte) (a s : State) : rxPush (afterLogs a s) b = afterLogs a (rxPush s b) := by
  have h : rxFull (afterLogs a s) = rxFull s := rfl
  unfold rxPush
  rw [h]
  split <;> rfl

theorem rxPushAll_afterLogs (bs : List Byte) (a s : State) :
    rxPushAll bs (afterLogs a s) = afterLogs a (rxPushAll bs s) := by
  induction bs generalizing s with
  | nil => rfl
  | cons b bs ih =>
    show rxPushAll bs (rxPush (afterLogs a s) b) = afterLogs a (rxPushAll bs (rxPush s b))
    rw [rxPush_afterLogs, ih]

/-! The flag and the counters: up to them, an operation does the same on the state without them. -/

@[simp] theorem withoutFlags_withoutFlags (s : State) : withoutFlags (withoutFlags s) = withoutFlags s := rfl

theorem complete_withoutFlags (now : Time) (s : State) :
    withoutFlags (complete now s) = withoutFlags (complete now (withoutFlags s)) := by
  have hf : (withoutFlags s).buf.frame = s.buf.frame := rfl
  rw [complete_eq, complete_eq, hf]
  by_cases h : bccAccepts s.buf.frame = true
  · rw [if_pos h, if_pos h]
    generalize uidField s.buf.frame = u
    have hw : windowExpired now (resetSync (withoutFlags s)) = windowExpired now (resetSync s) := rfl
    have hu : (resetSync (withoutFlags s)).lastSeenUid = (resetSync s).lastSeenUid := rfl
    unfold deb
    rw [hw, hu]
    split <;> rfl
  · rw [if_neg h, if_neg h, raise_checksumMismatch, raise_checksumMismatch]
    rfl

theorem rxbSeek_withoutFlags (b : Byte) (s : State) :
    withoutFlags (rxbSeek b s) = withoutFlags (rxbSeek b (withoutFlags s)) := by
  have hb : hdrByte (withoutFlags s).cfg (withoutFlags s).hdrIdx = hdrByte s.cfg s.hdrIdx := rfl
  have hi : (withoutFlags s).hdrIdx.val = s.hdrIdx.val := rfl
  simp only [rxbSeek, hb, hi, raise_headerMismatch]
  split
  · split <;> rfl
  · rfl

theorem rxbAcc_withoutFlags (b : Byte) (now : Time) (s : State) :
    withoutFlags (rxbAcc b now s) = withoutFlags (rxbAcc b now (withoutFlags s)) := by
  by_cases h : s.bufLen.val + 1 < 26
  · rw [rxbAcc_body b now s h, rxbAcc_body b now (withoutFlags s) h]
    rfl
  · have h25 : s.bufLen = 25 := by
      apply Fin.ext
      have := s.bufLen.isLt
      show _ = 25
      omega
    rw [rxbAcc_last b now s h25, rxbAcc_last b now (withoutFlags s) h25, complete_withoutFlags]
    rfl

theorem rxByte_withoutFlags (b : Byte) (now : Time) (s : State) :
    withoutFlags (rxByte b now s) = withoutFlags (rxByte b now (withoutFlags s)) := by
  cases h : s.syncState
  · rw [rxByte_seeking b now s h, rxByte_seeking b now (withoutFlags s) h, rxbSeek_withoutFlags]
  · rw [rxByte_accumulating b now s h, rxByte_accumulating b now (withoutFlags s) h, rxbAcc_withoutFlags]

theorem receiveAll_withoutFlags (now : Time) (bs : List Byte) (s : State) :
    withoutFlags (receiveAll now bs s) = withoutFlags (receiveAll now bs (withoutFlags s)) := by
  induction bs generalizing s with
  | nil => rfl
  | cons b bs ih => rw [receiveAll_cons, receiveAll_cons, ih, rxByte_withoutFlags, ← ih]

theorem drain_withoutFlags (now : Time) (s : State) :
    withoutFlags (drain now s) = withoutFlags (drain now (withoutFlags s)) := by
  rw [drain_eq, drain_eq, receiveAll_withoutFlags]
  rfl

theorem sched_withoutFlags (now : Time) (s : State) : sched now (withoutFlags s) = withoutFlags (sched now s) := by
  have h : requestDue now (withoutFlags s) = requestDue now s := rfl
  unfold sched
  rw [h]
  split <;> rfl

theorem tickBody_withoutFlags (now : Time) (s : State) :
    withoutFlags (tickBody now s) = withoutFlags (tickBody now (withoutFlags s)) := by
  have hg : gatePasses (countTick (withoutFlags s)) = gatePasses (countTick s) := rfl
  rcases tickBody_cases now s with ⟨h, e⟩ | ⟨h, e⟩ <;>
    rcases tickBody_cases now (withoutFlags s) with ⟨h', e'⟩ | ⟨h', e'⟩
  · rw [e, e']
    rfl
  · rw [hg, h] at h'
    cases h'
  · rw [hg, h] at h'
    cases h'
  · rw [e, e']
    have q : ({ countTick (withoutFlags s) with inTick := true, clock := now } : State) =
        withoutFlags { countTick s with inTick := true, clock := now } := rfl
    have := drain_withoutFlags now (sched now { countTick s with inTick := true, clock := now })
    rw [q, sched_withoutFlags]
    generalize drain now _ = t at this ⊢
    generalize drain now _ = t' at this ⊢
    exact congrArg (fun w : State => { w with inTick := false }) this

theorem rxPush_withoutFlags (b : Byte) (s : State) : rxPush (withoutFlags s) b = withoutFlags (rxPush s b) := by
  have h : rxFull (withoutFlags s) = rxFull s := rfl
  unfold rxPush
  rw [h]
  split <;> rfl

theorem rxPushAll_withoutFlags (bs : List Byte) (s : State) :
    rxPushAll bs (withoutFlags s) = withoutFlags (rxPushAll bs s) := by
  induction bs generalizing s with
  | nil => rfl
  | cons b bs ih =>
    show rxPushAll bs (rxPush (withoutFlags s) b) = withoutFlags (rxPushAll bs (rxPush s b))
    rw [rxPush_withoutFlags, ih]

end Sys2Proof.Machine
end

