-- ==== Sys2Proof/Tests/Slice0.lean ====
section
/-! SUPPORT. The author's own tests: the well-formedness check, one packet of each operation written out by hand, single
steps with the results that spec/95_test_vectors.md or a worked example of the rules gives, and for each statement with
hypotheses a state and operands that meet them. -/

namespace Sys2Proof.Tests

open Sys2Proof Sys2Proof.Machine Sys2Proof.Safety

/-! The instance and the frames of 95_test_vectors.md, section 0. -/

/-- The instance of 95_test_vectors.md with the given divider, interval and queue depth. -/
def inst (d : ℕ+) (interval : Time) (depth : Option Nat) : Params :=
  { tickDivider := d, reqIntervalMs := interval, debounceWindowMs := 100, hdr2 := 0x15, hdr3 := 0x00,
    rxFifoDepth := depth, uidReset := ⟨0xFF, 0xFF, 0xFF, 0xFF⟩, diag := true }

/-- Its reset state after SETUP. -/
def start (d : ℕ+) (interval : Time) : State :=
  { State.reset with cfg := inst d interval none, lastSeenUid := ⟨0xFF, 0xFF, 0xFF, 0xFF⟩, linkUp := true }

/-- The same with polls off (95_test_vectors.md, section 0) and every TICK processed. -/
def quiet : State := start 1 0xFFFFFFFF

def uidA : Uid := ⟨0x04, 0x1A, 0x2B, 0x3C⟩

def payloadA : Payload :=
  #v[0x00, 0x01, 0x02, 0x03, 0x04, 0x05, 0x06, 0x07, 0x08, 0x09, 0x0A, 0x0B, 0x0C, 0x0D, 0x0E, 0x0F]

/-- Frame A of 95_test_vectors.md. -/
def frameA : Frame :=
  #v[0x02, 0x00, 0x15, 0x00, 0x04, 0x1A, 0x2B, 0x3C, 0x00, 0x01, 0x02, 0x03, 0x04, 0x05, 0x06, 0x07, 0x08, 0x09, 0x0A,
    0x0B, 0x0C, 0x0D, 0x0E, 0x0F, 0x1C, 0x03]

/-- Frame A' of 95_test_vectors.md: bit 0 of the checksum flipped. -/
def frameA' : Frame := frameA.set 24 0x1D

/-- Frame Asw of 95_test_vectors.md: bytes 8 and 9 swapped. -/
def frameAsw : Frame := (frameA.set 8 0x01).set 9 0x00

/-- BUF as it stands when frame A has been received: the cells that are not 00. -/
def bufA : Memory :=
  [(0, 0x02), (2, 0x15), (4, 0x04), (5, 0x1A), (6, 0x2B), (7, 0x3C), (9, 0x01), (10, 0x02), (11, 0x03), (12, 0x04),
    (13, 0x05), (14, 0x06), (15, 0x07), (16, 0x08), (17, 0x09), (18, 0x0A), (19, 0x0B), (20, 0x0C), (21, 0x0D),
    (22, 0x0E), (23, 0x0F), (24, 0x1C), (25, 0x03)]

/-- An outcome is a next state of which `p` holds. -/
def nextWith (p : State → Bool) : Host.Outcome State Fault Refusal → Bool
  | .next t => p t
  | _ => false

/-- An outcome is the refusal `r`. -/
def refusedWith (r : Refusal) : Host.Outcome State Fault Refusal → Bool
  | .refused r' => decide (r' = r)
  | _ => false

/-! Well-formedness: no check remains, so no term is ill formed; a divider of any size has an encoding (00_scope.md
R10). -/

theorem test_wide_divider_wellFormed : wellFormed (.reset (2 ^ 32) 0) = true := by decide
theorem test_encode_wide_divider (c : Params) :
    encode c (.reset (2 ^ 32) 200) = ⟨.opcode8, [0x00, 0x01, 0x00, 0x00, 0x00, 0x00, 0x00, 0x00, 0x00, 0xC8]⟩ := rfl

/-! Decoding: one packet of each operation, written from 30_encoding.md R93, R97, R100 and R107. -/

theorem test_decode_reset (c : Params) :
    decode c ⟨.opcode8, [0x00, 0x03, 0x12, 0x34, 0x56, 0x78]⟩ = .ok (.reset 3 0x12345678) := rfl
theorem test_decode_setup (c : Params) : decode c ⟨.opcode8, [0x01]⟩ = .ok .setup := rfl
theorem test_decode_tick (c : Params) :
    decode c ⟨.opcode8, [0x02, 0x12, 0x34, 0x56, 0x78]⟩ = .ok (.tick 0x12345678) := rfl
theorem test_decode_rxArrive (c : Params) : decode c ⟨.opcode8, [0x08, 0x99]⟩ = .ok (.rxArrive 0x99) := rfl
theorem test_decode_gate (c : Params) : decode c ⟨.opcode8, [0x10]⟩ = .ok .gate := rfl
theorem test_decode_sched (c : Params) :
    decode c ⟨.opcode8, [0x11, 0x12, 0x34, 0x56, 0x78]⟩ = .ok (.sched 0x12345678) := rfl
theorem test_decode_drain (c : Params) :
    decode c ⟨.opcode8, [0x12, 0x12, 0x34, 0x56, 0x78]⟩ = .ok (.drain 0x12345678) := rfl
theorem test_decode_rxbSeek (c : Params) : decode c ⟨.opcode8, [0x20, 0x15]⟩ = .ok (.rxbSeek 0x15) := rfl
theorem test_decode_rxbAcc (c : Params) :
    decode c ⟨.opcode8, [0x21, 0xAB, 0x12, 0x34, 0x56, 0x78]⟩ = .ok (.rxbAcc 0xAB 0x12345678) := rfl
theorem test_decode_complete (c : Params) :
    decode c ⟨.opcode8, [0x22, 0x12, 0x34, 0x56, 0x78]⟩ = .ok (.complete 0x12345678) := rfl
theorem test_decode_bccChk (c : Params) :
    decode c ⟨.opcode8, [0x23, 0x02, 0x00, 0x15, 0x00, 0x04, 0x1A, 0x2B, 0x3C, 0x00, 0x01, 0x02, 0x03, 0x04, 0x05, 0x06,
      0x07, 0x08, 0x09, 0x0A, 0x0B, 0x0C, 0x0D, 0x0E, 0x0F, 0x1C, 0x03]⟩ = .ok (.bccChk frameA) := rfl
theorem test_decode_uidx (c : Params) :
    decode c ⟨.opcode8, [0x24, 0x02, 0x00, 0x15, 0x00, 0x04, 0x1A, 0x2B, 0x3C, 0x00, 0x01, 0x02, 0x03, 0x04, 0x05, 0x06,
      0x07, 0x08, 0x09, 0x0A, 0x0B, 0x0C, 0x0D, 0x0E, 0x0F, 0x1C, 0x03]⟩ = .ok (.uidx frameA) := rfl
theorem test_decode_debStore (c : Params) :
    decode c ⟨.opcode8, [0x30, 0x04, 0x1A, 0x2B, 0x3C, 0x00, 0x00, 0x00, 0x32]⟩ = .ok (.debStore uidA 50) := rfl
theorem test_decode_debFire (c : Params) :
    decode c ⟨.opcode8, [0x31, 0x04, 0x1A, 0x2B, 0x3C]⟩ = .ok (.debFire uidA) := rfl
theorem test_decode_pollRead (c : Params) :
    decode c ⟨.pf15, [0x02, 0x00, 0x0A, 0x20, 0x01, 0x01, 0x04, 0xFF, 0xFF, 0xFF, 0xFF, 0xFF, 0xFF, 0x2E, 0x03]⟩ =
      .ok .pollRead := rfl
theorem test_decode_resp : decode quiet.cfg ⟨.rf26, frameA.toList⟩ = .ok (.resp uidA payloadA 0x03) := rfl

/-- A response with a flipped checksum bit is no RESP (30_encoding.md R98 (c)). -/
theorem test_decode_resp_bad_checksum :
    decode quiet.cfg ⟨.rf26, frameA'.toList⟩ = .error .badFrameChecksum := rfl

/-- Too few argument bytes, a leading zero in a divider (log entry 3), and a code that is not listed (30_encoding.md
R104). -/
theorem test_decode_refusals (c : Params) :
    decode c ⟨.opcode8, [0x02, 0x00]⟩ = .error (.badOperands 0x02) ∧
      decode c ⟨.opcode8, [0x00, 0x00, 0x03, 0x00, 0x00, 0x00, 0xC8]⟩ = .error (.badOperands 0x00) ∧
      decode c ⟨.opcode8, [0x03]⟩ = .error (.unassignedCode 0x03) := ⟨rfl, rfl, rfl⟩

/-- The table rows of codes 00, 01, 02 and 10, and the two wire rows, as decodeTableWord reads them. -/
theorem test_table_words :
    decodeTableWord 8 0x00 = some (.reset 0 0) ∧ decodeTableWord 8 0x01 = some .setup ∧
      decodeTableWord 8 0x02 = some (.tick 0) ∧ decodeTableWord 8 0x10 = some .gate ∧
      decodeTableWord 120 0x032EFFFFFFFFFFFF040101200A0002 = some .pollRead ∧
      decodeTableWord 208 0x000002 =
        some (.resp ⟨0, 0, 0, 0⟩ #v[0, 0, 0, 0, 0, 0, 0, 0, 0, 0, 0, 0, 0, 0, 0, 0] 0) := by
  refine ⟨rfl, rfl, rfl, rfl, rfl, rfl⟩

/-! Single steps. -/

/-- 40_tick_gate.md R121, worked example. -/
theorem test_tick_first_poll :
    nextWith (fun t => decide (t.tickCounter = 1 ∧ t.lastRequestTs = 201 ∧ t.inTick = false ∧
      t.txlog.map (fun w => (w.now, w.frame)) = [(201, pollFrame)])) (exec (.tick 201) (start 1 200)) = true := by decide

/-- 40_tick_gate.md R124, worked example: with divider 3 the first TICK is skipped and the third is processed. -/
theorem test_gate_divider :
    nextWith (fun t => decide (t.tickCounter = 1 ∧ t.result = .gate false)) (exec .gate (start 3 200)) = true ∧
      nextWith (fun t => decide (t.tickCounter = 3 ∧ t.result = .gate true))
        (exec .gate { start 3 200 with tickCounter := 2 }) = true := by decide

/-- 40_tick_gate.md R120 and R122, 60_exceptions.md R245. -/
theorem test_refusals :
    refusedWith .notSetUp (exec (.tick 0) { quiet with linkUp := false }) = true ∧
      refusedWith .reentrant (exec .setup { quiet with inTick := true }) = true ∧
      refusedWith .badConfig (exec (.reset 0 200) quiet) = true ∧
      nextWith (fun t => t.linkUp) (exec .setup { quiet with linkUp := false }) = true := by decide

/-- 00_scope.md R10: a divider of 2^32 is constructed through a step like any other. -/
theorem test_wide_divider_runs :
    nextWith (fun t => decide ((t.cfg.tickDivider : Nat) = 2 ^ 32 ∧ t.cfg.reqIntervalMs = 200))
      (step { quiet with pending := [encode quiet.cfg (.reset (2 ^ 32) 200)] }) = true := by decide

/-- 70_reset_and_hazards.md R270, R271. -/
theorem test_reset_values :
    nextWith (fun t => decide (t.tickCounter = 0 ∧ t.lastSeenUid = ⟨0xFF, 0xFF, 0xFF, 0xFF⟩ ∧ t.bccFailCnt = 0 ∧
        (t.cfg.tickDivider : Nat) = 7 ∧ t.cfg.reqIntervalMs = 9 ∧ t.linkUp = false))
      (exec (.reset 7 9) { quiet with tickCounter := 5, lastSeenUid := uidA, bccFailCnt := 2 }) = true := by decide

/-- 95_test_vectors.md V14 and V17: the strict comparison and the clock wrap. -/
theorem test_sched_boundary :
    nextWith (fun t => decide (t.txlog.length = 0 ∧ t.lastRequestTs = 1000))
        (exec (.sched 1200) { start 1 200 with lastRequestTs := 1000 }) = true ∧
      nextWith (fun t => decide (t.txlog.length = 1 ∧ t.lastRequestTs = 1201))
        (exec (.sched 1201) { start 1 200 with lastRequestTs := 1000 }) = true := by decide

theorem test_sched_wrap :
    nextWith (fun t => decide (t.txlog.length = 0))
        (exec (.sched 0xB8) { start 1 200 with lastRequestTs := 0xFFFFFFF0 }) = true ∧
      nextWith (fun t => decide (t.txlog.length = 1 ∧ t.lastRequestTs = 0xB9))
        (exec (.sched 0xB9) { start 1 200 with lastRequestTs := 0xFFFFFFF0 }) = true := by decide

/-- 42_frame_sync.md R162, worked example, and R166. -/
theorem test_rxbSeek :
    nextWith (fun t => decide (t.hdrIdx = 3 ∧ t.syncState = .seekingHeader))
        (exec (.rxbSeek 0x15) { quiet with hdrIdx := 2 }) = true ∧
      nextWith (fun t => decide (t.hdrIdx = 0 ∧ t.syncState = .accumulating ∧ t.bufLen = 4 ∧
          t.buf = [(0, 0x02), (2, 0x15)])) (exec (.rxbSeek 0x00) { quiet with hdrIdx := 3 }) = true ∧
      nextWith (fun t => decide (t.hdrIdx = 0 ∧ t.hdrMismatchCnt = 1)) (exec (.rxbSeek 0x02) { quiet with hdrIdx := 1 }) =
        true := by decide

/-- 42_frame_sync.md R163, worked example. -/
theorem test_rxbAcc :
    nextWith (fun t => decide (t.bufLen = 25 ∧ t.syncState = .accumulating ∧ Memory.read t.buf 24 = 0x1C))
      (exec (.rxbAcc 0x1C 7) { quiet with syncState := .accumulating, bufLen := 24 }) = true := by decide

/-- The last byte of frame A: COMPLETE runs and the read is stored (42_frame_sync.md R170, 95_test_vectors.md V20). -/
theorem test_rxbAcc_last :
    nextWith (fun t => decide (t.bufLen = 0 ∧ t.syncState = .seekingHeader ∧ t.lastSeenUid = uidA ∧ t.lastSeenTs = 4 ∧
        t.armed = true ∧ t.bccFailCnt = 0))
      (exec (.rxbAcc 0x03 4) { quiet with syncState := .accumulating, bufLen := 25, buf := bufA.take 22 }) = true := by
  decide

/-- 42_frame_sync.md R170, worked example, confirming a candidate (95_test_vectors.md V7). -/
theorem test_complete_fires :
    nextWith (fun t => decide (t.evlog = [⟨uidA, 50⟩] ∧ t.lastSeenUid = ⟨0, 0, 0, 0⟩ ∧ t.lastSeenTs = 0 ∧ t.armed = false))
      (exec (.complete 50) { quiet with buf := bufA, lastSeenUid := uidA, armed := true }) = true := by decide

/-- 95_test_vectors.md V3 (a): a flipped checksum bit drops the frame. -/
theorem test_complete_drops :
    nextWith (fun t => decide (t.evlog = [] ∧ t.bccFailCnt = 1 ∧ t.lastSeenUid = ⟨0xFF, 0xFF, 0xFF, 0xFF⟩))
      (exec (.complete 50) { quiet with buf := bufA.write 24 0x1D }) = true := by decide

/-- 43_checksum.md R192, worked example, and 95_test_vectors.md V1, V3. -/
theorem test_bccChk :
    nextWith (fun t => decide (t.result = .bccChk true)) (exec (.bccChk frameA) quiet) = true ∧
      nextWith (fun t => decide (t.result = .bccChk false)) (exec (.bccChk frameA') quiet) = true ∧
      nextWith (fun t => decide (t.result = .bccChk true)) (exec (.bccChk frameAsw) quiet) = true := by decide

/-- 44_uid_extract.md R205, worked example. -/
theorem test_uidx : nextWith (fun t => decide (t.result = .uidx uidA)) (exec (.uidx frameA) quiet) = true := by decide

/-- 45_debounce.md R218 and R219, worked examples. -/
theorem test_debounce :
    nextWith (fun t => decide (t.lastSeenUid = uidA ∧ t.lastSeenTs = 30 ∧ t.armed = true ∧ t.evlog = []))
        (exec (.debStore uidA 30) quiet) = true ∧
      nextWith (fun t => decide (t.lastSeenUid = ⟨0, 0, 0, 0⟩ ∧ t.armed = false ∧ t.evlog = [⟨uidA, 50⟩]))
        (exec (.debFire uidA) { quiet with clock := 50, armed := true }) = true := by decide

/-- 42_frame_sync.md R160, worked example (95_test_vectors.md V25). -/
theorem test_drain :
    nextWith (fun t => decide (t.hdrIdx = 1 ∧ t.hdrMismatchCnt = 1 ∧ t.rxq = []))
      (exec (.drain 0) { quiet with rxq := [0x99, 0x02] }) = true := by decide

/-- 95_test_vectors.md V9: one noise byte, then frame A, in one TICK. -/
theorem test_tick_noise_then_frame :
    nextWith (fun t => decide (t.hdrMismatchCnt = 1 ∧ t.lastSeenUid = uidA ∧ t.armed = true ∧ t.evlog = []))
      (exec (.tick 0) { quiet with rxq := 0x99 :: frameA.toList }) = true := by decide

/-- 20_memory.md R63, 30_encoding.md R107. -/
theorem test_arrivals :
    nextWith (fun t => decide (t.rxq = [0x01, 0x02])) (exec (.rxArrive 0x02) { quiet with rxq := [0x01] }) = true ∧
      nextWith (fun t => decide (t.rxq = frameA.toList)) (exec (.resp uidA payloadA 0x03) quiet) = true := by decide

/-- 30_encoding.md R93. -/
theorem test_pollRead :
    nextWith (fun t => decide (t.txlog.map (fun w => (w.now, w.frame)) = [(77, pollFrame)]))
      (exec .pollRead { quiet with clock := 77 }) = true := by decide

/-- A step fetches, decodes and carries out; with nothing waiting it is idle. -/
theorem test_step :
    nextWith (fun t => decide (t.tickCounter = 1 ∧ t.pending = []))
        (step { quiet with pending := [⟨.opcode8, [0x02, 0x00, 0x00, 0x00, 0x00]⟩] }) = true ∧
      nextWith (fun t => t.linkUp) (step (State.reset.withFetchWord 8 0x01)) = true := by decide

/-! Witnesses: for each statement with hypotheses, a state and operands that meet all of them together, clause by clause at
the boundary values of the clause. A statement not named here has no hypothesis. -/

/-- A depth of `d` bytes with `q` waiting. -/
def queued (d : Nat) (q : List Byte) : State := { quiet with cfg := inst 1 0xFFFFFFFF (some d), rxq := q }

theorem quiet_ready : Ready quiet :=
  ⟨rfl, rfl, rfl, rfl, rfl, rfl, (fun _ h => by cases h), rfl⟩

theorem test_witness_ResetConstructsInstance : quiet.inTick = false ∧ 0 < 1 := by decide
theorem test_witness_ResetKeepsOrFlushesQueue :
    (queued 1 [0x02]).inTick = false ∧ 0 < 1 ∧ (queued 1 [0x02]).rxq ≠ [] := by decide
theorem test_witness_SetupOnlyBringsLinkUp : State.reset.inTick = false := rfl
theorem test_witness_HostEventsRefusedOutOfTurn :
    State.reset.linkUp = false ∧ ({ quiet with inTick := true } : State).linkUp = true ∧
      ({ quiet with inTick := true } : State).inTick = true ∧ 0 < 1 := by decide
theorem test_witness_ZeroDividerInsideTick : ({ quiet with inTick := true } : State).inTick = true := rfl

/-- With divider 3, TICK number 2 is skipped and TICK number 3 is processed. -/
theorem test_witness_SkippedTickOnlyCounts :
    (start 3 200).linkUp = true ∧ (start 3 200).inTick = false ∧
      ¬ NextTickProcessed { start 3 200 with tickCounter := 1 } := by
  unfold NextTickProcessed
  decide
theorem test_witness_ProcessedTickRunsGateSchedDrain :
    (start 3 200).linkUp = true ∧ (start 3 200).inTick = false ∧
      NextTickProcessed { start 3 200 with tickCounter := 2 } := by
  unfold NextTickProcessed
  decide
theorem test_witness_EveryNthTickIsProcessed :
    (start 3 200).linkUp = true ∧ (start 3 200).inTick = false ∧ (start 3 200).tickCounter = 0 ∧
      ([5, 5] : List Time).length < ((start 3 200).cfg.tickDivider : Nat) ∧
      ((start 3 200).cfg.tickDivider : Nat) ∣ ([5, 5] : List Time).length + 1 := by decide

theorem test_witness_TickOutputsAreBounded : exec (.tick 201) (start 1 200) = .next (tickBody 201 (start 1 200)) := rfl

/-- Elapsed 201 and elapsed 200 against the interval 200. -/
theorem test_witness_SchedWritesExactlyWhenDue :
    (start 1 200).cfg.reqIntervalMs.toNat < elapsedMs 1201 1000 ∧
      elapsedMs 1200 1000 ≤ (start 1 200).cfg.reqIntervalMs.toNat ∧
      (start 1 200).cfg.reqIntervalMs.toNat < elapsedMs 999 1000 := by decide
theorem test_witness_SchedExtremeIntervals :
    quiet.cfg.reqIntervalMs = 0xFFFFFFFF ∧ (start 1 0).cfg.reqIntervalMs = 0 ∧ (1 : Time) ≠ (start 1 0).lastRequestTs ∧
      (0 : Time) = (start 1 0).lastRequestTs := by decide
theorem test_witness_PollsStaySpaced :
    PollsSpaced (start 1 200) ∧ Instr.sched 201 ≠ .pollRead ∧
      exec (.sched 201) (start 1 200) = .next (sched 201 (start 1 200)) := by
  refine ⟨⟨fun xs a b ys h => ?_, fun xs a h => ?_⟩, by decide, rfl⟩ <;>
    exact absurd (congrArg List.length h) (by simp [start, State.reset])

/-- A state after one write: neighbouring requests exist only from two on, so both clauses of `PollsSpaced` bind here. -/
theorem test_witness_PollsSpaced_two :
    PollsSpaced { start 1 200 with txlog := [⟨0, pollFrame, true⟩, ⟨201, pollFrame, false⟩], lastRequestTs := 201 } := by
  refine ⟨fun xs a b ys h => ?_, fun xs a h => ?_⟩
  · match xs, h with
    | [], h =>
      simp only [List.nil_append, List.cons.injEq] at h
      obtain ⟨ha, hb, -⟩ := h
      rw [← ha, ← hb]
      decide
    | [x], h => simp at h
    | x :: y :: xs, h => simp at h
  · match xs, h with
    | [x], h =>
      simp only [List.cons_append, List.nil_append, List.cons.injEq, and_true] at h
      rw [← h.2]
    | [], h => simp at h
    | x :: y :: xs, h => simp at h

theorem quiet_machineInv (w : List TxRequest) (h : ∀ r ∈ w, r.frame = pollFrame) :
    MachineInv { quiet with txlog := w } := ⟨rfl, rfl, (fun _ h => by cases h), h⟩

theorem test_witness_TransmitStreamIsWholePolls :
    MachineInv { quiet with txlog := [⟨0, pollFrame, true⟩, ⟨201, pollFrame, false⟩] } :=
  quiet_machineInv _ (by simp)

/-- Room for exactly one byte; no room at all; a queue of depth 0. -/
theorem test_witness_ArrivingByteJoinsQueue :
    HasRoom (queued 1 []) 1 ∧ (queued 1 [0x02]).cfg.rxFifoDepth = some 1 ∧ 1 ≤ (queued 1 [0x02]).rxq.length ∧
      (queued 0 []).cfg.rxFifoDepth = some 0 ∧ 0 ≤ (queued 0 []).rxq.length := by
  refine ⟨fun d h => ?_, rfl, by decide, rfl, by decide⟩
  cases h
  decide
theorem test_witness_ResponseArrivesByteByByte : HasRoom (queued 26 []) 26 ∧ (queued 25 []).cfg.rxFifoDepth = some 25 := by
  refine ⟨fun d h => ?_, rfl⟩
  cases h
  decide
theorem test_witness_DrainIsItsLoop : quiet.rxq = [] ∧ (queued 1 [0x02]).rxq = 0x02 :: [] := ⟨rfl, rfl⟩

/-- A match at index 2, a match at index 3, and mismatches at index 0 and at index 3. -/
theorem test_witness_HeaderDetectorStep :
    (0x15 : Byte) = headerByte quiet.cfg ({ quiet with hdrIdx := 2 } : State).hdrIdx.val ∧
      ({ quiet with hdrIdx := 2 } : State).hdrIdx.val < 3 ∧
      (0x00 : Byte) = headerByte quiet.cfg ({ quiet with hdrIdx := 3 } : State).hdrIdx.val ∧
      Memory.wf quiet.buf = true ∧ (0x99 : Byte) ≠ headerByte quiet.cfg quiet.hdrIdx.val ∧
      (0x02 : Byte) ≠ headerByte quiet.cfg ({ quiet with hdrIdx := 3 } : State).hdrIdx.val := by decide
theorem test_witness_AccumulatorStep :
    Memory.wf bufA = true ∧ ({ quiet with bufLen := 24 } : State).bufLen.val < 25 ∧
      ({ quiet with bufLen := 25 } : State).bufLen = 25 := by decide

/-- A state whose 26 cells are frame A. -/
def full : State := { quiet with buf := bufA }

theorem full_cells : cells full = frameA := by
  apply Vector.ext
  decide
theorem frameA_holds : ChecksumHolds frameA := by
  unfold ChecksumHolds
  decide
theorem frameA'_fails : ¬ ChecksumHolds frameA' := by
  unfold ChecksumHolds
  decide

/-- Inside the window at exactly 100 ms, outside it at 101 ms (45_debounce.md R220). -/
theorem opens_at_101 : OpensCandidate uidA 101 { quiet with lastSeenUid := uidA } := .inr (by decide)
theorem not_opens_at_100 : ¬ OpensCandidate uidA 100 { quiet with lastSeenUid := uidA } := by
  unfold OpensCandidate
  decide

theorem test_witness_CompleteJudgesTheFrame :
    ¬ ChecksumHolds (cells { quiet with buf := bufA.write 24 0x1D }) ∧
      (ChecksumHolds (cells full) ∧ OpensCandidate (uidOf (cells full)) 0 full) ∧
      ChecksumHolds (cells { full with lastSeenUid := uidA }) ∧
      ¬ OpensCandidate (uidOf (cells { full with lastSeenUid := uidA })) 100 { full with lastSeenUid := uidA } := by
  have e : cells { full with lastSeenUid := uidA } = frameA := full_cells
  have e' : cells { quiet with buf := bufA.write 24 0x1D } = frameA' := by
    apply Vector.ext
    decide
  rw [e, e', full_cells]
  exact ⟨frameA'_fails, ⟨frameA_holds, .inl (by decide)⟩, frameA_holds, not_opens_at_100⟩

/-- 21 further bytes, the most that leave the frame unfinished. -/
theorem test_witness_HeaderThenBodyIsParked :
    Memory.wf quiet.buf = true ∧ quiet.syncState = .seekingHeader ∧ quiet.hdrIdx = 0 ∧
      ((frameA.toList.drop 4).take 21).length < 22 ∧
      ({ quiet with rxq := frameA.toList.take 25 } : State).rxq =
        [headerByte quiet.cfg 0, headerByte quiet.cfg 1, headerByte quiet.cfg 2, headerByte quiet.cfg 3] ++
          (frameA.toList.drop 4).take 21 := by decide

/-- Frame A opens a candidate, frame A confirms it at 100 ms, frame A' is dropped. -/
theorem test_witness_HeaderedRunIsJudgedByChecksum :
    Memory.wf quiet.buf = true ∧ quiet.syncState = .seekingHeader ∧ quiet.hdrIdx = 0 ∧
      (∀ k (_ : k < 4), frameA[k] = headerByte quiet.cfg k) ∧ (∀ k (_ : k < 4), frameA'[k] = headerByte quiet.cfg k) ∧
      ChecksumHolds frameA ∧ ¬ ChecksumHolds frameA' ∧ OpensCandidate (uidOf frameA) 0 quiet ∧
      ¬ OpensCandidate (uidOf frameA) 100 { quiet with lastSeenUid := uidA } :=
  ⟨rfl, rfl, rfl, by decide, by decide, frameA_holds, frameA'_fails, .inl (by decide), not_opens_at_100⟩
theorem test_witness_NoiseBeforeHeaderIsDiscarded :
    quiet.syncState = .seekingHeader ∧ quiet.hdrIdx = 0 ∧ (∀ b ∈ ([0x99, 0x15] : List Byte), b ≠ 0x02) ∧
      ({ quiet with rxq := [0x99, 0x15, 0x02] } : State).rxq = [0x99, 0x15] ++ [0x02] := by decide

/-- The stream of 42_frame_sync.md R167 (b), for the header 02 00 15 00 that its example uses. -/
def stray : State := { quiet with rxq := [0x02, 0x02, 0x00, 0x15, 0x00] }

theorem test_witness_StrayStxLosesHeader :
    stray.syncState = .seekingHeader ∧ stray.hdrIdx = 0 ∧
      stray.rxq = 0x02 :: [headerByte stray.cfg 0, headerByte stray.cfg 1, headerByte stray.cfg 2,
        headerByte stray.cfg 3] ∧ stray.cfg.hdr2 ≠ 0x02 ∧ stray.cfg.hdr3 ≠ 0x02 := by decide

/-- Its result in R167 (b): one match, four mismatches. -/
theorem test_stray_stx :
    nextWith (fun t => decide (t.hdrIdx = 0 ∧ t.syncState = .seekingHeader ∧ t.hdrMismatchCnt = 4))
      (exec (.drain 0) stray) = true := by decide
theorem test_witness_StalledFrameNeverTimesOut :
    ({ quiet with syncState := .accumulating, bufLen := 10 } : State).linkUp = true ∧ quiet.inTick = false ∧
      quiet.rxq = [] := by decide

/-- The invariant in the state that needs the most bytes, at header index 3, and with 25 bytes stored. -/
theorem test_witness_SynchronizerRecovers :
    SyncInv { quiet with hdrIdx := 3 } ∧ SyncInv { full with syncState := .accumulating, bufLen := 25 } ∧
      (List.replicate 25 (0x00 : Byte)).length = 25 :=
  ⟨⟨rfl, .inl ⟨rfl, rfl⟩⟩, ⟨by decide, .inr ⟨rfl, rfl, by decide, by decide⟩⟩, rfl⟩
theorem test_witness_ChecksumIgnoresOrder :
    frameA[24] = frameAsw[24] ∧ ((frameA.toList.drop 1).take 23).Perm ((frameAsw.toList.drop 1).take 23) := by decide

/-- Byte 1 and byte 24, bit 0 and bit 7; and the pair of bytes 1 and 24. -/
theorem test_witness_SingleBitFlipIsCaught :
    ChecksumHolds frameA ∧ (1 < 26 ∧ 1 ≤ 1 ∧ 1 ≤ 24 ∧ 0 < 8) ∧ (24 < 26 ∧ 1 ≤ 24 ∧ 24 ≤ 24 ∧ 7 < 8) ∧ 1 < 24 :=
  ⟨frameA_holds, by decide, by decide, by decide⟩

theorem test_witness_ResponseIsOneAcceptedRead :
    Ready quiet ∧ OpensCandidate uidA 0 quiet ∧ Ready { quiet with lastSeenUid := uidA } ∧
      ¬ OpensCandidate uidA 100 { quiet with lastSeenUid := uidA } :=
  ⟨quiet_ready, .inl (by decide), ⟨rfl, rfl, rfl, rfl, rfl, rfl, (fun _ h => by cases h), rfl⟩, not_opens_at_100⟩

/-- Two pairs, one with no time between its reads and one with exactly the window. -/
theorem test_witness_EverySecondReadFires :
    Ready quiet ∧ uidA ≠ ⟨0, 0, 0, 0⟩ ∧ uidA ≠ quiet.lastSeenUid ∧
      ∀ q ∈ ([(0, 0), (500, 600)] : List (Time × Time)), elapsedMs q.2 q.1 ≤ quiet.cfg.debounceWindowMs.toNat := by
  refine ⟨quiet_ready, by decide, by decide, fun q hq => ?_⟩
  rcases List.mem_cons.mp hq with rfl | hq
  · decide
  · rcases List.mem_singleton.mp hq with rfl
    decide
theorem test_witness_ThirdReadDoesNotRefire :
    Ready quiet ∧ uidA ≠ ⟨0, 0, 0, 0⟩ ∧ uidA ≠ quiet.lastSeenUid ∧
      elapsedMs 30 0 ≤ quiet.cfg.debounceWindowMs.toNat := ⟨quiet_ready, by decide, by decide, by decide⟩
theorem test_witness_AlternatingCardsNeverFire :
    Ready quiet ∧ uidA ≠ ⟨0xDE, 0xAD, 0xBE, 0xEF⟩ ∧ uidA ≠ quiet.lastSeenUid := ⟨quiet_ready, by decide, by decide⟩

/-- Inside the window at exactly 100 ms, outside it at 101 ms, and 100 ms after that. -/
theorem test_witness_AllZeroUidFiresOnOneRead :
    Ready { quiet with lastSeenUid := ⟨0, 0, 0, 0⟩ } ∧
      elapsedMs 100 quiet.lastSeenTs ≤ quiet.cfg.debounceWindowMs.toNat ∧
      quiet.cfg.debounceWindowMs.toNat < elapsedMs 101 quiet.lastSeenTs ∧
      elapsedMs 201 101 ≤ quiet.cfg.debounceWindowMs.toNat :=
  ⟨⟨rfl, rfl, rfl, rfl, rfl, rfl, (fun _ h => by cases h), rfl⟩, by decide, by decide, by decide⟩
theorem test_witness_FirstReadAfterReset :
    quiet.inTick = false ∧ quiet.rxq = [] ∧ HasRoom quiet 26 ∧ Memory.wf quiet.buf = true ∧
      ((⟨0xFF, 0xFF, 0xFF, 0xFF⟩ : Uid) = quiet.cfg.uidReset ∧
        (100 : Time).toNat ≤ quiet.cfg.debounceWindowMs.toNat) ∧
      ¬ ((⟨0xFF, 0xFF, 0xFF, 0xFF⟩ : Uid) = quiet.cfg.uidReset ∧
        (101 : Time).toNat ≤ quiet.cfg.debounceWindowMs.toNat) :=
  ⟨rfl, rfl, (fun _ h => by cases h), rfl, by decide, by decide⟩

theorem quiet_syncInv : SyncInv quiet := ⟨rfl, .inl ⟨rfl, rfl⟩⟩

theorem test_witness_OperationsKeepSyncInv :
    SyncInv quiet ∧ Selected (.rxbSeek 0x02) quiet ∧ exec (.rxbSeek 0x02) quiet = .next (rxbSeek 0x02 quiet) :=
  ⟨quiet_syncInv, rfl, rfl⟩

/-- A script of one RXARRIVE. -/
def waiting : State := { quiet with pending := [⟨.opcode8, [0x08, 0x02]⟩] }

theorem test_witness_StepKeepsSyncInv :
    SyncInv waiting ∧ HostScript waiting ∧ nextWith (fun t => decide (t.rxq = [0x02])) (step waiting) = true := by
  refine ⟨⟨rfl, .inl ⟨rfl, rfl⟩⟩, fun p hp i hi => ?_, by decide⟩
  rcases List.mem_singleton.mp (show p ∈ [_] from hp) with rfl
  cases hi
  rfl
theorem test_witness_StepKeepsMachineInv :
    MachineInv waiting ∧ nextWith (fun t => decide (t.rxq = [0x02])) (step waiting) = true :=
  ⟨⟨rfl, rfl, (fun _ h => by cases h), by simp [waiting, quiet, start, State.reset]⟩, by decide⟩
theorem test_witness_ConfigurationIsReadOnly :
    exec (.reset 7 9) quiet = .next (construct 7 9 quiet) ∧
      exec (.rxArrive 0x02) quiet = .next (rxPush quiet 0x02) := ⟨rfl, rfl⟩
theorem test_witness_OutputsComeFromTheirOperations :
    exec (.reset 7 9) quiet = .next (construct 7 9 quiet) ∧
      exec (.debFire uidA) quiet = .next (debFire uidA 0 quiet) ∧
      exec .setup quiet = .next { quiet with linkUp := true } := ⟨rfl, rfl, rfl⟩
theorem test_witness_DecodeInvertsEncode : wellFormed (.reset (2 ^ 64) 0xFFFFFFFF) = true := by decide
theorem test_witness_EncodeInvertsDecode : decode quiet.cfg ⟨.opcode8, [0x08, 0x02]⟩ = .ok (.rxArrive 0x02) := rfl

/-- Frame A meets the right-hand side; it is what test_decode_resp reads. -/
theorem test_witness_ResponsePacketsAreExactlyResponses :
    (∀ k (_ : k < 4), frameA[k] = headerByte quiet.cfg k) ∧ ChecksumHolds frameA ∧
      (∀ k (_ : k < 16), payloadA[k] = frameA[8 + k]) ∧ uidOf frameA = uidA ∧ frameA[25] = 0x03 :=
  ⟨by decide, frameA_holds, by decide, by decide, by decide⟩

/-- An operation that is no RESET, on a state whose logs are not empty, appends to both of them. -/
theorem test_witness_RecordsAreNeverRead :
    (∀ d interval, Instr.debFire uidA ≠ .reset d interval) ∧
      nextWith (fun t => decide (t.evlog = [⟨uidA, 1⟩, ⟨uidA, 50⟩] ∧ t.txlog.length = 1))
        (exec (.debFire uidA)
          { quiet with clock := 50, evlog := [⟨uidA, 1⟩], txlog := [⟨0, pollFrame, true⟩] }) = true :=
  ⟨by simp, by decide⟩

/-- The code after the last listed one. -/
theorem test_witness_UnassignedCodesAreRefused :
    (0x32 : Byte).toNat ∉ assignedCodes ∧
      ({ quiet with pending := [⟨.opcode8, [0x32, 0x00]⟩] } : State).pending = ⟨.opcode8, 0x32 :: [0x00]⟩ :: [] := by
  decide
theorem test_witness_StepRunsTheDecodedOperation :
    waiting.pending = ⟨.opcode8, [0x08, 0x02]⟩ :: [] ∧
      decode waiting.cfg ⟨.opcode8, [0x08, 0x02]⟩ = .ok (.rxArrive 0x02) ∧
      decode waiting.cfg ⟨.opcode8, []⟩ = .error .noCode ∧ quiet.pending = [] := ⟨rfl, rfl, rfl, rfl⟩
theorem test_witness_WrittenOutPacketsDecode : quiet.cfg.hdr2 = 0x15 ∧ quiet.cfg.hdr3 = 0x00 := ⟨rfl, rfl⟩

end Sys2Proof.Tests
end

section
/-! What every operation leaves alone, and what a step can do: the configuration, the packets that wait, and the records
no rule reads (10_state.md R34, R36, R38, R44). -/

namespace Sys2Proof.Machine

open Sys2Proof.Safety

/-! The three operations that can be refused: what stands in front of their effect. -/

theorem exec_reset (d : Nat) (interval : Time) (s : State) :
    exec (.reset d interval) s =
      if s.inTick then .refused .reentrant
      else if h : 0 < d then .next (construct ⟨d, h⟩ interval s)
      else .refused .badConfig := rfl

theorem exec_setup (s : State) :
    exec .setup s = if s.inTick then .refused .reentrant else .next { s with linkUp := true } := rfl

theorem exec_tick_eq (now : Time) (s : State) :
    exec (.tick now) s =
      if !s.linkUp then .refused .notSetUp
      else if s.inTick then .refused .reentrant
      else .next (tickBody now s) := rfl

/-! The configuration and the packets that wait. -/

theorem pending_of_withOutside {a t : State} (h : withOutside a t = t) : t.pending = a.pending := by
  rw [← h]
  rfl

/-- No operation writes the packets that wait, and none but RESET the configuration (10_state.md R36). -/
theorem exec_next_frame (i : Instr) (s t : State) (h : exec i s = .next t) :
    t.pending = s.pending ∧
      (t.cfg = s.cfg ∨
        ∃ (d : ℕ+) (interval : Time), i = .reset d interval ∧
          t.cfg = { s.cfg with tickDivider := d, reqIntervalMs := interval }) := by
  cases i with
  | reset d interval =>
    obtain ⟨-, hd, rfl⟩ := exec_reset_next d interval s t h
    exact ⟨rfl, .inr ⟨⟨d, hd⟩, interval, rfl, rfl⟩⟩
  | setup =>
    obtain ⟨-, rfl⟩ := exec_setup_next s t h
    exact ⟨rfl, .inl rfl⟩
  | tick now =>
    obtain ⟨-, -, rfl⟩ := exec_tick_next now s t h
    obtain ⟨-, -, -, hcfg, hpending⟩ := tickBody_frame now s
    exact ⟨hpending, .inl hcfg⟩
  | rxArrive b =>
    obtain rfl := Host.Outcome.next.inj h
    rcases rxPush_cases s b with ⟨-, e⟩ | ⟨-, e⟩ <;> rw [e] <;> exact ⟨rfl, .inl rfl⟩
  | sched now =>
    obtain rfl := Host.Outcome.next.inj h
    rcases sched_cases now s with ⟨-, e⟩ | ⟨-, e⟩ <;> rw [e] <;> exact ⟨rfl, .inl rfl⟩
  | drain now =>
    obtain rfl := Host.Outcome.next.inj h
    obtain ⟨hout, hcfg⟩ := drain_frame now s
    exact ⟨(pending_of_withOutside hout :), .inl hcfg⟩
  | rxbSeek b =>
    obtain rfl := Host.Outcome.next.inj h
    obtain ⟨hout, hcfg⟩ := rxbSeek_frame b s
    exact ⟨pending_of_withOutside hout, .inl hcfg⟩
  | rxbAcc b now =>
    obtain rfl := Host.Outcome.next.inj h
    obtain ⟨hout, hcfg⟩ := rxbAcc_frame b now s
    exact ⟨pending_of_withOutside hout, .inl hcfg⟩
  | complete now =>
    obtain rfl := Host.Outcome.next.inj h
    obtain ⟨hout, hcfg⟩ := complete_frame now s
    exact ⟨pending_of_withOutside hout, .inl hcfg⟩
  | resp u p e =>
    obtain rfl := Host.Outcome.next.inj h
    rw [rxPushAll_frame]
    exact ⟨rfl, .inl rfl⟩
  | gate | bccChk | uidx | debStore | debFire | pollRead =>
    obtain rfl := Host.Outcome.next.inj h
    exact ⟨rfl, .inl rfl⟩

/-- An operation leaves the two header bytes that each reader has of its own (00_scope.md R11). -/
theorem exec_next_hdr (i : Instr) (s t : State) (h : exec i s = .next t) :
    t.cfg.hdr2 = s.cfg.hdr2 ∧ t.cfg.hdr3 = s.cfg.hdr3 := by
  obtain ⟨-, e | ⟨d, interval, -, e⟩⟩ := exec_next_frame i s t h <;> rw [e] <;> exact ⟨rfl, rfl⟩

/-- The decoder reads no parameter but the two header bytes (30_encoding.md R108). -/
theorem decode_of_hdr (c c' : Params) (h2 : c'.hdr2 = c.hdr2) (h3 : c'.hdr3 = c.hdr3) (p : Packet) :
    decode c' p = decode c p := by
  have hh : header c' = header c := by simp only [header_eq, headerByte, h2, h3]
  cases hf : p.format <;> simp only [decode, hf, decodeRf26, hh]

/-- A step that has a next state is idle, or carries out the oldest packet's operation on the state without it. -/
theorem step_next_cases (s t : State) (h : step s = .next t) :
    (s.pending = [] ∧ t = s) ∨
      ∃ p rest i, s.pending = p :: rest ∧ decode s.cfg p = .ok i ∧ exec i { s with pending := rest } = .next t := by
  cases hp : s.pending with
  | nil =>
    simp only [step, fetch, hp, Host.Outcome.next.injEq] at h
    exact .inl ⟨rfl, h.symm⟩
  | cons p rest =>
    simp only [step, fetch, hp] at h
    cases hd : decode s.cfg p with
    | error e =>
      rw [hd] at h
      cases h
    | ok i =>
      rw [hd] at h
      exact .inr ⟨p, rest, i, rfl, hd, h⟩

/-! The logs: any operation but RESET on a state with the entries of `a` in front has them in front in the end. -/

theorem exec_afterLogs (i : Instr) (a s : State) (hi : ∀ d interval, i ≠ .reset d interval) :
    exec i (afterLogs a s) = mapNext (afterLogs a) (exec i s) := by
  cases i with
  | reset d interval => exact absurd rfl (hi d interval)
  | setup =>
    rw [exec_setup, exec_setup, show (afterLogs a s).inTick = s.inTick from rfl]
    split <;> rfl
  | tick now =>
    rw [exec_tick_eq, exec_tick_eq, tickBody_afterLogs, show (afterLogs a s).inTick = s.inTick from rfl,
      show (afterLogs a s).linkUp = s.linkUp from rfl]
    split
    · rfl
    · split <;> rfl
  | rxArrive b => exact congrArg Host.Outcome.next (rxPush_afterLogs b a s)
  | sched now => exact congrArg Host.Outcome.next (sched_afterLogs now a s)
  | drain now => exact congrArg Host.Outcome.next (drain_afterLogs now a s)
  | rxbSeek b => exact congrArg Host.Outcome.next (rxbSeek_afterLogs b a s)
  | rxbAcc b now => exact congrArg Host.Outcome.next (rxbAcc_afterLogs b now a s)
  | complete now => exact congrArg Host.Outcome.next (complete_afterLogs now a s)
  | debFire u => exact congrArg Host.Outcome.next (by simp [debFire, presence, afterLogs, setArmed])
  | pollRead => exact congrArg Host.Outcome.next (txWrite_afterLogs s.clock a s)
  | resp u p e => exact congrArg Host.Outcome.next (rxPushAll_afterLogs (respBytes s.cfg u p e) a s)
  | gate | bccChk | uidx | debStore => rfl

/-! The flag and the counters. -/

theorem sameUpTo_next {π : State → State} {t t' : State} (h : π t = π t') : SameUpTo π (.next t) (.next t') := h

/-- An operation on the state without the flag and the counters answers the same, up to them. -/
theorem exec_withoutFlags (i : Instr) (s : State) :
    SameUpTo withoutFlags (exec i s) (exec i (withoutFlags s)) := by
  cases i with
  | reset d interval =>
    rw [exec_reset, exec_reset, show (withoutFlags s).inTick = s.inTick from rfl]
    split
    · rfl
    · split <;> rfl
  | setup =>
    rw [exec_setup, exec_setup, show (withoutFlags s).inTick = s.inTick from rfl]
    split <;> rfl
  | tick now =>
    rw [exec_tick_eq, exec_tick_eq, show (withoutFlags s).inTick = s.inTick from rfl,
      show (withoutFlags s).linkUp = s.linkUp from rfl]
    split
    · rfl
    · split
      · rfl
      · exact sameUpTo_next (tickBody_withoutFlags now s)
  | rxArrive b => exact sameUpTo_next (by rw [rxPush_withoutFlags, withoutFlags_withoutFlags])
  | sched now => exact sameUpTo_next (by rw [sched_withoutFlags, withoutFlags_withoutFlags])
  | drain now => exact sameUpTo_next (drain_withoutFlags now s)
  | rxbSeek b => exact sameUpTo_next (rxbSeek_withoutFlags b s)
  | rxbAcc b now => exact sameUpTo_next (rxbAcc_withoutFlags b now s)
  | complete now => exact sameUpTo_next (complete_withoutFlags now s)
  | resp u p e =>
    have bytes : respBytes (withoutFlags s).cfg u p e = respBytes s.cfg u p e := rfl
    exact sameUpTo_next (by rw [bytes, rxPushAll_withoutFlags, withoutFlags_withoutFlags])
  | gate | bccChk | uidx | debStore | debFire | pollRead => rfl

end Sys2Proof.Machine
end

section
/-! A machine with `DIAG` absent (10_state.md R38): every operation commutes with leaving the diagnostic counters out. -/

namespace Sys2Proof.Machine

open Sys2Proof.Safety

theorem raise_withoutDiag (c : FaultClass) (s : State) : raise c (withoutDiag s) = withoutDiag (raise c s) := by
  cases c with
  | headerMismatch =>
    rw [raise_headerMismatch, raise_headerMismatch]
    rfl
  | checksumMismatch =>
    rw [raise_checksumMismatch, raise_checksumMismatch]
    rfl
  | transportUnderrun => rfl

theorem deb_withoutDiag (u : Uid) (t : Time) (s : State) : deb u t (withoutDiag s) = withoutDiag (deb u t s) := by
  have hw : windowExpired t (withoutDiag s) = windowExpired t s := rfl
  have hu : (withoutDiag s).lastSeenUid = s.lastSeenUid := rfl
  unfold deb
  rw [hw, hu]
  split <;> rfl

theorem complete_withoutDiag (now : Time) (s : State) :
    complete now (withoutDiag s) = withoutDiag (complete now s) := by
  have hf : (withoutDiag s).buf.frame = s.buf.frame := rfl
  have hr : resetSync (withoutDiag s) = withoutDiag (resetSync s) := rfl
  rw [complete_eq, complete_eq, hf, hr, deb_withoutDiag, raise_withoutDiag]
  split <;> rfl

theorem rxbSeek_withoutDiag (b : Byte) (s : State) : rxbSeek b (withoutDiag s) = withoutDiag (rxbSeek b s) := by
  have hb : hdrByte (withoutDiag s).cfg (withoutDiag s).hdrIdx = hdrByte s.cfg s.hdrIdx := by
    rw [hdrByte_eq, hdrByte_eq]
    rfl
  have hi : (withoutDiag s).hdrIdx.val = s.hdrIdx.val := rfl
  have hm : raise .headerMismatch { withoutDiag s with hdrIdx := 0 } =
      withoutDiag (raise .headerMismatch { s with hdrIdx := 0 }) := raise_withoutDiag _ { s with hdrIdx := 0 }
  unfold rxbSeek
  simp only [hb, hi, hm]
  split
  · split <;> rfl
  · rfl

theorem rxbAcc_withoutDiag (b : Byte) (now : Time) (s : State) :
    rxbAcc b now (withoutDiag s) = withoutDiag (rxbAcc b now s) := by
  rcases rxbAcc_cases b now s with ⟨h, e⟩ | ⟨h, e⟩
  · rw [e, rxbAcc_body b now (withoutDiag s) h]
    rfl
  · rw [e, rxbAcc_last b now (withoutDiag s) h, ← complete_withoutDiag]
    rfl

theorem rxByte_withoutDiag (b : Byte) (now : Time) (s : State) :
    rxByte b now (withoutDiag s) = withoutDiag (rxByte b now s) := by
  cases h : s.syncState with
  | seekingHeader => rw [rxByte_seeking b now s h, rxByte_seeking b now (withoutDiag s) h, rxbSeek_withoutDiag]
  | accumulating => rw [rxByte_accumulating b now s h, rxByte_accumulating b now (withoutDiag s) h, rxbAcc_withoutDiag]

theorem receiveAll_withoutDiag (now : Time) (bs : List Byte) (s : State) :
    receiveAll now bs (withoutDiag s) = withoutDiag (receiveAll now bs s) := by
  induction bs generalizing s with
  | nil => rfl
  | cons b bs ih => rw [receiveAll_cons, receiveAll_cons, rxByte_withoutDiag, ih]

theorem drain_withoutDiag (now : Time) (s : State) : drain now (withoutDiag s) = withoutDiag (drain now s) := by
  rw [drain_eq, drain_eq, ← receiveAll_withoutDiag]
  rfl

theorem sched_withoutDiag (now : Time) (s : State) : sched now (withoutDiag s) = withoutDiag (sched now s) := by
  have h : requestDue now (withoutDiag s) = requestDue now s := rfl
  unfold sched
  rw [h]
  split <;> rfl

theorem tickBody_eq (now : Time) (s : State) :
    tickBody now s =
      if gatePasses (countTick s) = true then
        { drain now (sched now { countTick s with inTick := true, clock := now }) with inTick := false }
      else { countTick s with inTick := false } := by
  rcases tickBody_cases now s with ⟨h, e⟩ | ⟨h, e⟩
  · rw [e, if_neg (by simp [h])]
  · rw [e, if_pos h]

theorem tickBody_withoutDiag (now : Time) (s : State) :
    tickBody now (withoutDiag s) = withoutDiag (tickBody now s) := by
  have hg : gatePasses (countTick (withoutDiag s)) = gatePasses (countTick s) := rfl
  have start : ({ countTick (withoutDiag s) with inTick := true, clock := now } : State) =
      withoutDiag { countTick s with inTick := true, clock := now } := rfl
  rw [tickBody_eq, tickBody_eq, hg, start, sched_withoutDiag, drain_withoutDiag]
  generalize drain now _ = t
  split <;> rfl

theorem rxPush_withoutDiag (b : Byte) (s : State) : rxPush (withoutDiag s) b = withoutDiag (rxPush s b) := by
  have h : rxFull (withoutDiag s) = rxFull s := rfl
  unfold rxPush
  rw [h]
  split <;> rfl

theorem rxPushAll_withoutDiag (bs : List Byte) (s : State) :
    rxPushAll bs (withoutDiag s) = withoutDiag (rxPushAll bs s) := by
  induction bs generalizing s with
  | nil => rfl
  | cons b bs ih =>
    show rxPushAll bs (rxPush (withoutDiag s) b) = withoutDiag (rxPushAll bs (rxPush s b))
    rw [rxPush_withoutDiag, ih]

/-- Leaving the counters out before an operation or after it comes to the same. -/
theorem exec_withoutDiag (i : Instr) (s : State) : exec i (withoutDiag s) = mapNext withoutDiag (exec i s) := by
  cases i with
  | reset d interval =>
    rw [exec_reset, exec_reset, show (withoutDiag s).inTick = s.inTick from rfl]
    split
    · rfl
    · split <;> rfl
  | setup =>
    rw [exec_setup, exec_setup, show (withoutDiag s).inTick = s.inTick from rfl]
    split <;> rfl
  | tick now =>
    rw [exec_tick_eq, exec_tick_eq, tickBody_withoutDiag, show (withoutDiag s).inTick = s.inTick from rfl,
      show (withoutDiag s).linkUp = s.linkUp from rfl]
    split
    · rfl
    · split <;> rfl
  | rxArrive b => exact congrArg Host.Outcome.next (rxPush_withoutDiag b s)
  | sched now => exact congrArg Host.Outcome.next (sched_withoutDiag now s)
  | drain now => exact congrArg Host.Outcome.next (drain_withoutDiag now s)
  | rxbSeek b => exact congrArg Host.Outcome.next (rxbSeek_withoutDiag b s)
  | rxbAcc b now => exact congrArg Host.Outcome.next (rxbAcc_withoutDiag b now s)
  | complete now => exact congrArg Host.Outcome.next (complete_withoutDiag now s)
  | resp u p e => exact congrArg Host.Outcome.next (rxPushAll_withoutDiag (respBytes s.cfg u p e) s)
  | gate | bccChk | uidx | debStore | debFire | pollRead => rfl

/-- An outcome and the same one with its next state projected agree up to the projection. -/
theorem sameUpTo_mapNext (π : State → State) (hπ : ∀ s, π (π s) = π s) (o : Host.Outcome State Fault Refusal) :
    SameUpTo π o (mapNext π o) := by
  cases o with
  | next t => exact (hπ t).symm
  | fault r => rfl
  | refused r => rfl

end Sys2Proof.Machine
end

section
/-! The sequencing state (10_state.md R33): each operation that writes it, in the state that selects it, keeps `SyncInv`. -/

namespace Sys2Proof.Safety

open Sys2Proof.Machine

/-- The header depends on no parameter but its two own bytes (00_scope.md R11). -/
theorem headerByte_of_hdr (c c' : Params) (h2 : c'.hdr2 = c.hdr2) (h3 : c'.hdr3 = c.hdr3) :
    headerByte c' = headerByte c := by
  funext k
  rw [headerByte, headerByte, h2, h3]

/-- At the start of a search the canonical form of BUF is all the invariant asks for. -/
theorem syncInv_of_search {s : State} (hw : Memory.wf s.buf = true) (hs : s.syncState = .seekingHeader)
    (hl : s.bufLen = 0) : SyncInv s := ⟨hw, .inl ⟨hs, hl⟩⟩

/-- The invariant reads S3 to S6 and the configuration. -/
theorem syncInv_congr {s t : State} (hinv : SyncInv s) (hs : t.syncState = s.syncState) (hi : t.hdrIdx = s.hdrIdx)
    (hb : t.buf = s.buf) (hl : t.bufLen = s.bufLen) (hc : t.cfg = s.cfg) : SyncInv t := by
  unfold SyncInv
  rw [hs, hi, hb, hl, hc]
  exact hinv

theorem syncInv_construct {s : State} (hinv : SyncInv s) (d : ℕ+) (interval : Time) :
    SyncInv (construct d interval s) := syncInv_of_search hinv.1 rfl rfl

/-- RXB.SEEK: the fourth match seeds the header and starts accumulating (42_frame_sync.md R165); the other outcomes stay
in the search. -/
theorem syncInv_rxbSeek {s : State} (hinv : SyncInv s) (hs : s.syncState = .seekingHeader) (b : Byte) :
    SyncInv (rxbSeek b s) := by
  obtain ⟨hw, ⟨-, hl⟩ | ⟨ha, -⟩⟩ := hinv
  · rcases rxbSeek_cases b s with ⟨-, _, e⟩ | ⟨-, -, e⟩ | ⟨-, e⟩ <;> rw [e]
    · exact syncInv_of_search hw hs hl
    · refine ⟨seedHeader_wf s.cfg s.buf hw, .inr ⟨rfl, rfl, le_rfl, fun k hk => ?_⟩⟩
      exact (seedHeader_read s.cfg s.buf hw k).trans ((dif_pos hk).trans (hdrByte_eq s.cfg ⟨k, hk⟩))
    · exact syncInv_of_search hw hs hl
  · exact absurd (hs.symm.trans ha) (by decide)

/-- COMPLETE ends at the start of a search, whatever it judged (42_frame_sync.md R171). -/
theorem syncInv_complete {s : State} (hw : Memory.wf s.buf = true) (now : Time) : SyncInv (complete now s) := by
  obtain ⟨_, -, -, -, hs, -, hl, hb⟩ := complete_outputs now s
  exact syncInv_of_search (by rw [hb, hw]) hs hl

/-- RXB.ACC writes at or above cell 4, so the header stays where it is (42_frame_sync.md R163). -/
theorem syncInv_rxbAcc {s : State} (hinv : SyncInv s) (ha : s.syncState = .accumulating) (b : Byte) (now : Time) :
    SyncInv (rxbAcc b now s) := by
  obtain ⟨hw, ⟨hs, -⟩ | ⟨-, hi, h4, hhdr⟩⟩ := hinv
  · exact absurd (hs.symm.trans ha) (by decide)
  · rcases rxbAcc_cases b now s with ⟨hlen, e⟩ | ⟨-, e⟩ <;> rw [e]
    · refine ⟨Memory.wf_write s.buf _ b s.bufLen.isLt hw, .inr ⟨ha, hi, Nat.le_succ_of_le h4, fun k hk => ?_⟩⟩
      exact (Memory.read_write s.buf _ k b hw).trans ((if_neg (by omega)).trans (hhdr k hk))
    · exact syncInv_complete (Memory.wf_write s.buf 25 b (by decide) hw) now

theorem syncInv_rxByte {s : State} (hinv : SyncInv s) (b : Byte) (now : Time) : SyncInv (rxByte b now s) := by
  cases h : s.syncState with
  | seekingHeader =>
    rw [rxByte_seeking b now s h]
    exact syncInv_rxbSeek hinv h b
  | accumulating =>
    rw [rxByte_accumulating b now s h]
    exact syncInv_rxbAcc hinv h b now

theorem syncInv_receiveAll {s : State} (hinv : SyncInv s) (now : Time) (bs : List Byte) :
    SyncInv (receiveAll now bs s) := by
  induction bs generalizing s with
  | nil => exact hinv
  | cons b bs ih => exact ih (syncInv_rxByte hinv b now)

theorem syncInv_drain {s : State} (hinv : SyncInv s) (now : Time) : SyncInv (drain now s) := by
  have start : SyncInv { s with rxq := [] } := syncInv_congr hinv rfl rfl rfl rfl rfl
  rw [drain_eq]
  exact syncInv_receiveAll start now s.rxq

theorem syncInv_sched {s : State} (hinv : SyncInv s) (now : Time) : SyncInv (sched now s) := by
  rcases sched_cases now s with ⟨-, e⟩ | ⟨-, e⟩ <;> rw [e]
  · exact syncInv_congr hinv rfl rfl rfl rfl rfl
  · exact hinv

theorem syncInv_tickBody {s : State} (hinv : SyncInv s) (now : Time) : SyncInv (tickBody now s) := by
  rcases tickBody_cases now s with ⟨-, e⟩ | ⟨-, e⟩ <;> rw [e]
  · exact syncInv_congr hinv rfl rfl rfl rfl rfl
  · have start : SyncInv { countTick s with inTick := true, clock := now } := syncInv_congr hinv rfl rfl rfl rfl rfl
    exact syncInv_congr (syncInv_drain (syncInv_sched start now) now) rfl rfl rfl rfl rfl

theorem syncInv_rxPushAll {s : State} (hinv : SyncInv s) (bs : List Byte) : SyncInv (rxPushAll bs s) := by
  rw [rxPushAll_frame]
  exact syncInv_congr hinv rfl rfl rfl rfl rfl

/-- Any operation in the state that selects it keeps the invariant of the sequencing state. -/
theorem syncInv_exec {i : Instr} {s t : State} (hinv : SyncInv s) (hsel : Selected i s) (h : exec i s = .next t) :
    SyncInv t := by
  cases i with
  | reset d interval =>
    obtain ⟨-, hd, rfl⟩ := exec_reset_next d interval s t h
    exact syncInv_construct hinv _ interval
  | setup =>
    obtain ⟨-, rfl⟩ := exec_setup_next s t h
    exact syncInv_congr hinv rfl rfl rfl rfl rfl
  | tick now =>
    obtain ⟨-, -, rfl⟩ := exec_tick_next now s t h
    exact syncInv_tickBody hinv now
  | rxArrive b =>
    obtain rfl := Host.Outcome.next.inj h
    exact (syncInv_rxPushAll hinv [b] : SyncInv (rxPush s b))
  | sched now =>
    obtain rfl := Host.Outcome.next.inj h
    exact syncInv_sched hinv now
  | drain now =>
    obtain rfl := Host.Outcome.next.inj h
    exact syncInv_drain hinv now
  | rxbSeek b =>
    obtain rfl := Host.Outcome.next.inj h
    exact syncInv_rxbSeek hinv hsel b
  | rxbAcc b now =>
    obtain rfl := Host.Outcome.next.inj h
    exact syncInv_rxbAcc hinv hsel b now
  | complete now =>
    obtain rfl := Host.Outcome.next.inj h
    exact syncInv_complete hinv.1 now
  | resp u p e =>
    obtain rfl := Host.Outcome.next.inj h
    exact syncInv_rxPushAll hinv (respBytes s.cfg u p e)
  | gate | bccChk | uidx | debStore | debFire | pollRead =>
    obtain rfl := Host.Outcome.next.inj h
    exact syncInv_congr hinv rfl rfl rfl rfl rfl

/-- No state is asked for by an operation from outside the CORE (10_state.md R41). -/
theorem selected_of_isOutside {i : Instr} (hi : isOutside i = true) (s : State) : Selected i s := by
  cases i with
  | rxbSeek | rxbAcc => cases hi
  | _ => trivial

/-- A script stays one of events from outside when no packet joins it and the two header bytes stay. -/
theorem hostScript_of_subset {s t : State} (hscript : HostScript s) (hp : t.pending ⊆ s.pending)
    (h2 : t.cfg.hdr2 = s.cfg.hdr2) (h3 : t.cfg.hdr3 = s.cfg.hdr3) : HostScript t := by
  intro p hmem i hi
  rw [decode_of_hdr s.cfg t.cfg h2 h3] at hi
  exact hscript p (hp hmem) i hi

end Sys2Proof.Safety
end

section
/-! The obligations of 10_state.md. -/

namespace Sys2Proof.Proofs.StateFamily

open Sys2Proof.Machine Sys2Proof.Safety

/-- Settles O47: the reset state is at the start of a search, and nothing waits. -/
theorem syncInvAtReset : Obligations.SyncInvAtReset := by
  unfold Obligations.SyncInvAtReset
  exact ⟨syncInv_of_search rfl rfl rfl, fun p hp => absurd hp List.not_mem_nil⟩

/-- Settles O45, operation by operation. -/
theorem operationsKeepSyncInv : Obligations.OperationsKeepSyncInv := by
  unfold Obligations.OperationsKeepSyncInv
  exact fun _ _ _ hinv hsel h => syncInv_exec hinv hsel h

/-- Settles O46: an operation from outside is in a state that selects it, and no operation writes the script or the
header bytes the decoder reads. -/
theorem stepKeepsSyncInv : Obligations.StepKeepsSyncInv := by
  unfold Obligations.StepKeepsSyncInv
  intro s t hinv hscript hstep
  rcases step_next_cases s t hstep with ⟨-, rfl⟩ | ⟨p, rest, i, hpending, hdecode, hexec⟩
  · exact ⟨hinv, hscript⟩
  · have taken : SyncInv { s with pending := rest } := syncInv_congr hinv rfl rfl rfl rfl rfl
    have outside : isOutside i = true := hscript p (by simp [hpending]) i hdecode
    obtain ⟨hrest, -⟩ := exec_next_frame i _ t hexec
    obtain ⟨h2, h3⟩ := exec_next_hdr i _ t hexec
    exact ⟨syncInv_exec taken (selected_of_isOutside outside _) hexec,
      hostScript_of_subset hscript (by simp [hrest, hpending]) h2 h3⟩

/-- Settles O50. -/
theorem configurationIsReadOnly : Obligations.ConfigurationIsReadOnly := by
  unfold Obligations.ConfigurationIsReadOnly
  exact fun i s t h => (exec_next_frame i s t h).2

/-- Settles O52: the flag and the counters by `exec_withoutFlags`; the logs since a state is its own entries in front of
empty logs; RESET since it starts new logs. -/
theorem recordsAreNeverRead : Obligations.RecordsAreNeverRead := by
  unfold Obligations.RecordsAreNeverRead
  refine ⟨exec_withoutFlags, fun i s hi => ?_, fun s d interval => rfl⟩
  have front := exec_afterLogs i s (withoutLogs s) hi
  rwa [afterLogs_withoutLogs] at front

/-- Settles O53: the outcome without `DIAG` is the outcome with it, counters and `DIAG` left out. -/
theorem diagnosticsChangeNothingElse : Obligations.DiagnosticsChangeNothingElse := by
  unfold Obligations.DiagnosticsChangeNothingElse
  intro i s
  rw [exec_withoutDiag]
  exact sameUpTo_mapNext withoutDiag (fun _ => rfl) (exec i s)

end Sys2Proof.Proofs.StateFamily
end

section
/-! The receive queue (20_memory.md R63, R68) and the transmit stream (R66, R67). -/

namespace Sys2Proof.Machine

open Sys2Proof.Safety

/-! The receive queue. -/

/-- The overrun test is the absence of room for one byte (20_memory.md R68). -/
theorem rxFull_eq_false_iff (s : State) : rxFull s = false ↔ HasRoom s 1 := by
  refine ⟨fun h d hd => ?_, rxFull_of_room s 0⟩
  simp only [rxFull, hd, decide_eq_false_iff_not] at h
  omega

/-- What an overrun leaves fits into the depth (20_memory.md R68, U1). -/
theorem overrunContents_length_le (s : State) (d : Nat) (hd : s.cfg.rxFifoDepth = some d) :
    (overrunContents s).length ≤ d := by
  simp only [overrunContents, hd]
  exact List.length_take_le d _

/-- A byte that arrives on a full queue overruns it (20_memory.md R68). -/
theorem rxPush_of_full (s : State) (b : Byte) (d : Nat) (hd : s.cfg.rxFifoDepth = some d) (hfull : d ≤ s.rxq.length) :
    rxPush s b = { s with rxq := overrunContents s, freeCount := s.freeCount + 1 } := by
  rcases rxPush_cases s b with ⟨hroom, -⟩ | ⟨-, e⟩
  · have fits := (rxFull_eq_false_iff s).mp hroom d hd
    omega
  · exact e

/-- An arriving byte leaves the queue within its depth. -/
theorem hasRoom_rxPush {s : State} (b : Byte) : HasRoom (rxPush s b) 0 := by
  intro d hd
  rcases rxPush_cases s b with ⟨hfull, e⟩ | ⟨-, e⟩ <;> rw [e] at hd ⊢
  · have room := (rxFull_eq_false_iff s).mp hfull d hd
    simpa using room
  · exact overrunContents_length_le s d hd

/-- RESET keeps all the bytes that wait, or none (70_reset_and_hazards.md R272). -/
theorem queueAtReset_length_le (s : State) : (queueAtReset s).length ≤ s.rxq.length := by
  cases hq : s.rxq with
  | nil => simp [queueAtReset, hq]
  | cons b q =>
    simp only [queueAtReset, hq]
    split
    · exact le_rfl
    · exact Nat.zero_le _

/-! The transmit stream. -/

/-- No write request carries anything but the poll frame (30_encoding.md R103). -/
def OnlyPolls (s : State) : Prop := ∀ r ∈ s.txlog, r.frame = pollFrame

theorem onlyPolls_txWrite {s : State} (h : OnlyPolls s) (now : Time) : OnlyPolls (txWrite now s) := by
  intro r hr
  rw [txWrite_txlog, List.mem_append, List.mem_singleton] at hr
  rcases hr with hr | rfl
  · exact h r hr
  · rfl

theorem onlyPolls_sched {s : State} (h : OnlyPolls s) (now : Time) : OnlyPolls (sched now s) := by
  rcases sched_cases now s with ⟨-, e⟩ | ⟨-, e⟩ <;> rw [e]
  · exact onlyPolls_txWrite h now
  · exact h

/-- Requests of one and the same frame: the bytes of those delivered are copies of that frame. -/
theorem flatMap_delivered_eq_replicate (f : PollFrame) (log : List TxRequest) (h : ∀ r ∈ log, r.frame = f) :
    (log.flatMap fun r => if r.delivered then r.frame.toList else []) =
      (List.replicate (log.filter fun r => r.delivered).length f.toList).flatten := by
  induction log with
  | nil => rfl
  | cons r log ih =>
    obtain ⟨hr, hlog⟩ := List.forall_mem_cons.mp h
    rw [List.flatMap_cons, ih hlog]
    cases hd : r.delivered with
    | true => simp [hd, hr, List.replicate_succ]
    | false => simp [hd]

/-! DRAIN and SCHED against the cells of BUF and the log of requests. -/

@[simp] theorem drain_txlog (now : Time) (s : State) : (drain now s).txlog = s.txlog :=
  (congrArg State.txlog (drain_frame now s).1).symm

@[simp] theorem sched_buf (now : Time) (s : State) : (sched now s).buf = s.buf := by
  rcases sched_cases now s with ⟨-, e⟩ | ⟨-, e⟩ <;> rw [e]
  rfl

end Sys2Proof.Machine
end

section
/-! The canonical form of BUF (20_memory.md R60): whatever the sequencing state, each operation of the synchronizer keeps
it. -/

namespace Sys2Proof.Machine

theorem wf_buf_rxbSeek {s : State} (h : Memory.wf s.buf = true) (b : Byte) : Memory.wf (rxbSeek b s).buf = true := by
  rcases rxbSeek_cases b s with ⟨-, _, e⟩ | ⟨-, -, e⟩ | ⟨-, e⟩ <;> rw [e]
  · exact h
  · exact seedHeader_wf s.cfg s.buf h
  · exact h

theorem wf_buf_complete {s : State} (h : Memory.wf s.buf = true) (now : Time) :
    Memory.wf (complete now s).buf = true := by
  obtain ⟨_, -, -, -, -, -, -, hbuf⟩ := complete_outputs now s
  rw [hbuf, h]

theorem wf_buf_rxbAcc {s : State} (h : Memory.wf s.buf = true) (b : Byte) (now : Time) :
    Memory.wf (rxbAcc b now s).buf = true := by
  rcases rxbAcc_cases b now s with ⟨_, e⟩ | ⟨-, e⟩ <;> rw [e]
  · exact Memory.wf_write s.buf _ b s.bufLen.isLt h
  · exact wf_buf_complete (Memory.wf_write s.buf 25 b (by decide) h) now

theorem wf_buf_rxByte {s : State} (h : Memory.wf s.buf = true) (b : Byte) (now : Time) :
    Memory.wf (rxByte b now s).buf = true := by
  cases hs : s.syncState with
  | seekingHeader =>
    rw [rxByte_seeking b now s hs]
    exact wf_buf_rxbSeek h b
  | accumulating =>
    rw [rxByte_accumulating b now s hs]
    exact wf_buf_rxbAcc h b now

theorem wf_buf_receiveAll {s : State} (h : Memory.wf s.buf = true) (now : Time) (bs : List Byte) :
    Memory.wf (receiveAll now bs s).buf = true := by
  induction bs generalizing s with
  | nil => exact h
  | cons b bs ih => exact ih (wf_buf_rxByte h b now)

theorem wf_buf_drain {s : State} (h : Memory.wf s.buf = true) (now : Time) : Memory.wf (drain now s).buf = true := by
  have start : Memory.wf ({ s with rxq := [] } : State).buf = true := h
  rw [drain_eq]
  exact wf_buf_receiveAll start now s.rxq

end Sys2Proof.Machine
end

section
/-! The machine invariant (20_memory.md R68, R76, 30_encoding.md R103): each operation keeps it, in whatever state it is
carried out. -/

namespace Sys2Proof.Safety

open Sys2Proof.Machine

/-- The invariant reads BUF, `in_tick`, the queue, the log of requests and the configuration. -/
theorem machineInv_congr {s t : State} (hinv : MachineInv s) (hb : t.buf = s.buf) (hi : t.inTick = s.inTick)
    (hq : t.rxq = s.rxq) (hx : t.txlog = s.txlog) (hc : t.cfg = s.cfg) : MachineInv t where
  buf := by rw [hb, hinv.buf]
  inTick := hi.trans hinv.inTick
  depth := by rw [hc, hq]; exact hinv.depth
  polls := by rw [hx]; exact hinv.polls

/-- An operation of the synchronizer can break the invariant in BUF only (40_tick_gate.md R129). -/
theorem machineInv_of_withOutside {s t : State} (hinv : MachineInv s) (hframe : withOutside s t = t ∧ t.cfg = s.cfg)
    (hb : Memory.wf t.buf = true) : MachineInv t := by
  obtain ⟨hout, hc⟩ := hframe
  have hi : s.inTick = t.inTick := (congrArg State.inTick hout :)
  have hq : s.rxq = t.rxq := (congrArg State.rxq hout :)
  have hx : s.txlog = t.txlog := (congrArg State.txlog hout :)
  exact
    { buf := hb
      inTick := hi ▸ hinv.inTick
      depth := by rw [hc, ← hq]; exact hinv.depth
      polls := hx ▸ hinv.polls }

/-- RESET starts an empty log and leaves the depth; of the queue it adds nothing. -/
theorem machineInv_construct {s : State} (hinv : MachineInv s) (d : ℕ+) (interval : Time) :
    MachineInv (construct d interval s) where
  buf := hinv.buf
  inTick := rfl
  depth n hn := (queueAtReset_length_le s).trans (hinv.depth n hn)
  polls _ hr := absurd hr List.not_mem_nil

theorem machineInv_rxPush {s : State} (hinv : MachineInv s) (b : Byte) : MachineInv (rxPush s b) := by
  have depth : HasRoom (rxPush s b) 0 := hasRoom_rxPush b
  rcases rxPush_cases s b with ⟨-, e⟩ | ⟨-, e⟩ <;> rw [e] at depth ⊢ <;>
    exact ⟨hinv.buf, hinv.inTick, depth, hinv.polls⟩

theorem machineInv_rxPushAll {s : State} (hinv : MachineInv s) (bs : List Byte) : MachineInv (rxPushAll bs s) := by
  induction bs generalizing s with
  | nil => exact hinv
  | cons b bs ih => exact ih (machineInv_rxPush hinv b)

theorem machineInv_txWrite {s : State} (hinv : MachineInv s) (now : Time) : MachineInv (txWrite now s) :=
  ⟨hinv.buf, hinv.inTick, hinv.depth, onlyPolls_txWrite hinv.polls now⟩

theorem machineInv_sched {s : State} (hinv : MachineInv s) (now : Time) : MachineInv (sched now s) := by
  rcases sched_cases now s with ⟨-, e⟩ | ⟨-, e⟩ <;> rw [e]
  · exact machineInv_congr (machineInv_txWrite hinv now) rfl rfl rfl rfl rfl
  · exact hinv

/-- DRAIN is the operation of the synchronizer on each byte of a queue that is empty from then on. -/
theorem machineInv_drain {s : State} (hinv : MachineInv s) (now : Time) : MachineInv (drain now s) := by
  have emptied : MachineInv { s with rxq := [] } :=
    ⟨hinv.buf, hinv.inTick, fun d _ => Nat.zero_le d, hinv.polls⟩
  exact machineInv_of_withOutside emptied (drain_frame now s) (wf_buf_drain hinv.buf now)

/-- A TICK sets `in_tick` while it runs and clears it in the end (20_memory.md R76); inside, SCHED requests at most a poll
and DRAIN empties the queue. -/
theorem machineInv_tickBody {s : State} (hinv : MachineInv s) (now : Time) : MachineInv (tickBody now s) := by
  rcases tickBody_cases now s with ⟨-, e⟩ | ⟨-, e⟩ <;> rw [e]
  · exact machineInv_congr hinv rfl hinv.inTick.symm rfl rfl rfl
  · generalize hw : ({ countTick s with inTick := true, clock := now } : State) = w
    have hbuf : Memory.wf (sched now w).buf = true := by
      rw [sched_buf, ← hw]
      exact hinv.buf
    have hpolls : OnlyPolls w := by
      rw [← hw]
      exact hinv.polls
    exact
      { buf := wf_buf_drain hbuf now
        inTick := rfl
        depth := fun d _ => by simp
        polls := by
          simp only [drain_txlog]
          exact onlyPolls_sched hpolls now }

/-- Any operation that has a next state keeps the machine invariant, whether or not the state selects it. -/
theorem machineInv_exec {i : Instr} {s t : State} (hinv : MachineInv s) (h : exec i s = .next t) : MachineInv t := by
  cases i with
  | reset d interval =>
    obtain ⟨-, hd, rfl⟩ := exec_reset_next d interval s t h
    exact machineInv_construct hinv _ interval
  | setup =>
    obtain ⟨-, rfl⟩ := exec_setup_next s t h
    exact machineInv_congr hinv rfl rfl rfl rfl rfl
  | tick now =>
    obtain ⟨-, -, rfl⟩ := exec_tick_next now s t h
    exact machineInv_tickBody hinv now
  | rxArrive b =>
    obtain rfl := Host.Outcome.next.inj h
    exact machineInv_rxPush hinv b
  | sched now =>
    obtain rfl := Host.Outcome.next.inj h
    exact machineInv_sched hinv now
  | drain now =>
    obtain rfl := Host.Outcome.next.inj h
    exact machineInv_drain hinv now
  | rxbSeek b =>
    obtain rfl := Host.Outcome.next.inj h
    exact machineInv_of_withOutside hinv (rxbSeek_frame b s) (wf_buf_rxbSeek hinv.buf b)
  | rxbAcc b now =>
    obtain rfl := Host.Outcome.next.inj h
    exact machineInv_of_withOutside hinv (rxbAcc_frame b now s) (wf_buf_rxbAcc hinv.buf b now)
  | complete now =>
    obtain rfl := Host.Outcome.next.inj h
    exact machineInv_of_withOutside hinv (complete_frame now s) (wf_buf_complete hinv.buf now)
  | pollRead =>
    obtain rfl := Host.Outcome.next.inj h
    exact machineInv_txWrite hinv s.clock
  | resp u p e =>
    obtain rfl := Host.Outcome.next.inj h
    exact machineInv_rxPushAll hinv (respBytes s.cfg u p e)
  | gate | bccChk | uidx | debStore | debFire =>
    obtain rfl := Host.Outcome.next.inj h
    exact machineInv_congr hinv rfl rfl rfl rfl rfl

end Sys2Proof.Safety
end

section
/-! The obligations of 20_memory.md. -/

namespace Sys2Proof.Proofs.MemoryFamily

open Sys2Proof.Machine Sys2Proof.Safety

/-- Settles O19: with room the arrival of one byte is a run of arrivals of length one; without it, what the overrun leaves
is cut to the depth. -/
theorem arrivingByteJoinsQueue : Obligations.ArrivingByteJoinsQueue := by
  unfold Obligations.ArrivingByteJoinsQueue
  refine ⟨fun s b hroom => ?_, fun s b d hd hfull => ?_⟩
  · exact congrArg Host.Outcome.next (rxPushAll_of_room [b] s hroom)
  · refine ⟨overrunContents s, overrunContents_length_le s d hd, ?_⟩
    rw [exec_rxArrive, rxPush_of_full s b d hd hfull]

/-- Settles O18, by induction over the log of requests. -/
theorem transmitStreamIsWholePolls : Obligations.TransmitStreamIsWholePolls := by
  unfold Obligations.TransmitStreamIsWholePolls
  exact fun s hinv => flatMap_delivered_eq_replicate pollFrame s.txlog hinv.polls

/-- Settles O48: a step is idle or carries out one operation, and each operation keeps the invariant. -/
theorem stepKeepsMachineInv : Obligations.StepKeepsMachineInv := by
  unfold Obligations.StepKeepsMachineInv
  intro s t hinv hstep
  rcases step_next_cases s t hstep with ⟨-, rfl⟩ | ⟨p, rest, i, -, -, hexec⟩
  · exact hinv
  · have taken : MachineInv { s with pending := rest } := machineInv_congr hinv rfl rfl rfl rfl rfl
    exact machineInv_exec taken hexec

end Sys2Proof.Proofs.MemoryFamily
end

section
/-! The encoding (30_encoding.md): what the decoder reads from a coded operation, from an outbound frame and from an inbound
one. -/

namespace Sys2Proof.Machine

open Sys2Proof.Safety

/-! The three formats (30_encoding.md R108). -/

theorem decode_opcode8 (c : Params) (bytes : List Byte) : decode c ⟨.opcode8, bytes⟩ = decodeOpcode8 bytes := rfl
theorem decode_pf15 (c : Params) (bytes : List Byte) : decode c ⟨.pf15, bytes⟩ = decodePf15 bytes := rfl
theorem decode_rf26 (c : Params) (bytes : List Byte) : decode c ⟨.rf26, bytes⟩ = decodeRf26 c bytes := rfl

/-! The coded operations (30_encoding.md R100, R104). -/

/-- An operation that is read from a code and its arguments has that code and these arguments as its packet. -/
theorem encode_of_decodeOperation (c : Params) (n : Nat) (args : List Byte) (i : Instr)
    (h : decodeOperation n args = some i) : encode c i = opcodePacket (BitVec.ofNat 8 n) args := by
  unfold decodeOperation at h
  split at h
  case h_1 =>
    obtain ⟨d, interval, rfl, rfl⟩ := natWordOperands_some _ _ _ h
    rfl
  case h_2 | h_5 =>
    obtain ⟨rfl, rfl⟩ := noOperand_some _ _ _ h
    rfl
  case h_3 | h_6 | h_7 | h_10 =>
    obtain ⟨w, rfl, rfl⟩ := wordOperand_some _ _ _ h
    rfl
  case h_4 | h_8 =>
    obtain ⟨b, rfl, rfl⟩ := byteOperand_some _ _ _ h
    rfl
  case h_9 =>
    obtain ⟨b, w, rfl, rfl⟩ := byteWordOperands_some _ _ _ h
    rfl
  case h_11 | h_12 =>
    obtain ⟨f, rfl, rfl⟩ := frameOperand_some _ _ _ h
    rfl
  case h_13 =>
    obtain ⟨u, w, rfl, rfl⟩ := uidWordOperands_some _ _ _ h
    rfl
  case h_14 =>
    obtain ⟨u, rfl, rfl⟩ := uidOperand_some _ _ _ h
    rfl
  case h_15 => cases h

/-- An operation read from a packet of format `OPCODE8` is the operation of its code and arguments. -/
theorem decodeOpcode8_ok (bytes : List Byte) (i : Instr) (h : decodeOpcode8 bytes = .ok i) :
    ∃ code args, bytes = code :: args ∧ decodeOperation code.toNat args = some i := by
  cases bytes with
  | nil => cases h
  | cons code args =>
    refine ⟨code, args, rfl, ?_⟩
    simp only [decodeOpcode8] at h
    split at h
    · cases h
    · split at h
      · rename_i read
        cases h
        exact read
      · cases h

/-- A code that is not listed has no length of arguments (30_encoding.md R104). -/
theorem operandLength_of_unassigned (n : Nat) (h : n ∉ assignedCodes) : operandLength n = none := by
  unfold operandLength
  split
  case h_15 => rfl
  all_goals exact absurd (by decide) h

/-- A code that is not listed is refused whatever follows it (30_encoding.md R104). -/
theorem decode_unassigned (c : Params) (code : Byte) (args : List Byte) (h : code.toNat ∉ assignedCodes) :
    decode c ⟨.opcode8, code :: args⟩ = .error (.unassignedCode code) := by
  simp only [decode_opcode8, decodeOpcode8, operandLength_of_unassigned _ h]

/-! The outbound frame (30_encoding.md R93, R103). -/

/-- The poll frame is the one packet of format `PF15` that is an operation. -/
theorem decodePf15_ok_iff (bytes : List Byte) (i : Instr) :
    decodePf15 bytes = .ok i ↔ bytes = pollFrame.toList ∧ i = .pollRead := by
  unfold decodePf15
  by_cases h : bytes = pollFrame.toList <;> simp [h, eq_comm]

/-! The inbound frame (30_encoding.md R97 to R99, R108). -/

/-- The payload field of a frame, bytes 8 to 23 (30_encoding.md R97). -/
def payloadOf (f : Frame) : Payload := Vector.ofFn fun k => f[8 + k.val]

@[simp] theorem payloadOf_getElem (f : Frame) (k : Nat) (h : k < 16) : (payloadOf f)[k] = f[8 + k] := by
  simp [payloadOf]

/-- A payload that stands in bytes 8 to 23 of a frame is the frame's payload field. -/
theorem eq_payloadOf (f : Frame) (p : Payload) (h : ∀ k (_ : k < 16), p[k] = f[8 + k]) : p = payloadOf f := by
  apply Vector.ext
  intro k hk
  rw [payloadOf_getElem, h k hk]

/-- A frame is a response of the reader: its header and its checksum are right (30_encoding.md R98). -/
structure IsResponse (c : Params) (f : Frame) : Prop where
  header : ∀ k (_ : k < 4), f[k] = headerByte c k
  checksum : ChecksumHolds f

/-- The first four bytes as the decoder compares them, byte by byte (30_encoding.md R98 (b)). -/
theorem take_toList_eq_header_iff (c : Params) (f : Frame) :
    f.toList.take 4 = header c ↔ ∀ k (_ : k < 4), f[k] = headerByte c k := by
  have len : (f.toList.take 4).length = (header c).length := by simp [header]
  have cell : ∀ k (h : k < 4), (header c)[k]'h = headerByte c k := by
    intro k h
    rcases (by omega : k = 0 ∨ k = 1 ∨ k = 2 ∨ k = 3) with rfl | rfl | rfl | rfl <;> rfl
  constructor
  · intro h k hk
    rw [← cell k hk]
    simp [← h]
  · intro h
    apply List.ext_getElem len
    intro k _ hk
    rw [cell k hk, ← h k hk]
    simp

/-- The decoder's reading of 26 bytes (30_encoding.md R98, R99). -/
theorem decodeRf26_toList_ok_iff (c : Params) (f : Frame) (i : Instr) :
    decodeRf26 c f.toList = .ok i ↔ IsResponse c f ∧ i = .resp (uidOf f) (payloadOf f) f[25] := by
  have payload : vectorOfList 16 ((f.toList.drop 8).take 16) = some (payloadOf f) := by
    rw [← vectorOfList_toList 16 (payloadOf f)]
    congr 1
    apply List.ext_getElem
    · simp
    · intro k _ _
      simp
  have checksum : f.toList.getD Config.bccIdx 0 = bcc f.toList ↔ ChecksumHolds f := by
    rw [bcc_frame, ChecksumHolds]
    simp [Config.bccIdx]
  have uid : (⟨f.toList.getD 4 0, f.toList.getD 5 0, f.toList.getD 6 0, f.toList.getD 7 0⟩ : Uid) = uidOf f := by
    simp [uidOf]
  have terminator : f.toList.getD Config.etxIdx 0 = f[25] := by simp
  have head := take_toList_eq_header_iff c f
  unfold decodeRf26
  rw [if_neg (by simp), payload, uid, terminator]
  by_cases hh : f.toList.take Config.hdrLen = header c
  · by_cases hc : f.toList.getD Config.bccIdx 0 = bcc f.toList
    · rw [if_neg (not_not.mpr hh), if_neg (not_not.mpr hc)]
      simp only [Except.ok.injEq]
      exact ⟨fun h => ⟨⟨head.mp hh, checksum.mp hc⟩, h.symm⟩, fun h => h.2.symm⟩
    · rw [if_neg (not_not.mpr hh), if_pos hc]
      exact ⟨fun h => (nomatch h), fun h => absurd (checksum.mpr h.1.checksum) hc⟩
  · rw [if_pos hh]
    exact ⟨fun h => (nomatch h), fun h => absurd (head.mpr h.1.header) hh⟩

/-- An operation is read from 26 bytes only (30_encoding.md R96, R98 (a)). -/
theorem decodeRf26_ok_frame (c : Params) (bytes : List Byte) (i : Instr) (h : decodeRf26 c bytes = .ok i) :
    ∃ f : Frame, f.toList = bytes := by
  by_cases len : bytes.length = 26
  · exact ⟨⟨⟨bytes⟩, len⟩, rfl⟩
  · rw [decodeRf26, if_pos len] at h
    cases h

/-- The checksum of a frame depends on its bytes 1 to 23 (43_checksum.md R190). -/
theorem xorOfBody_congr (f g : Frame) (h : ∀ k (_ : k < 24), f[k] = g[k]) : xorOfBody f = xorOfBody g := by
  unfold xorOfBody
  congr 1
  refine List.map_congr_left fun k hk => ?_
  have lt : k + 1 < 24 := by
    rw [List.mem_range] at hk
    omega
  simpa [show k + 1 < 26 by omega] using h (k + 1) lt

/-- Two responses of one reader with the same UID, payload and terminator are the same frame (30_encoding.md R97). -/
theorem IsResponse.ext {c : Params} {f g : Frame} (hf : IsResponse c f) (hg : IsResponse c g)
    (uid : uidOf f = uidOf g) (payload : payloadOf f = payloadOf g) (terminator : f[25] = g[25]) :
    f = g := by
  have body : ∀ k (_ : k < 24), f[k] = g[k] := by
    intro k hk
    rcases (by omega : k < 4 ∨ k = 4 ∨ k = 5 ∨ k = 6 ∨ k = 7 ∨ 8 ≤ k) with h4 | rfl | rfl | rfl | rfl | h8
    · rw [hf.header k h4, hg.header k h4]
    · exact congrArg Uid.u0 uid
    · exact congrArg Uid.u1 uid
    · exact congrArg Uid.u2 uid
    · exact congrArg Uid.u3 uid
    · have byte : (payloadOf f)[k - 8] = (payloadOf g)[k - 8] := by rw [payload]
      simpa [show 8 + (k - 8) = k by omega] using byte
  apply Vector.ext
  intro k hk
  rcases (by omega : k < 24 ∨ k = 24 ∨ k = 25) with h | rfl | rfl
  · exact body k h
  · exact hf.checksum.trans ((xorOfBody_congr f g body).trans hg.checksum.symm)
  · exact terminator

/-- The bytes of a RESP are a response with its operands as fields (30_encoding.md R97, R98). -/
theorem respBytes_isResponse (c : Params) (u : Uid) (p : Payload) (e : Byte) :
    ∃ f : Frame, f.toList = respBytes c u p e ∧ IsResponse c f ∧ uidOf f = u ∧ payloadOf f = p ∧ f[25] = e := by
  obtain ⟨f, bytes, head, uid, payload, checksum, terminator⟩ := respBytes_frame c u p e
  exact ⟨f, bytes, ⟨head, checksum⟩, uid, (eq_payloadOf f p fun k hk => (payload k hk).symm).symm, terminator⟩

/-- A response is the bytes of the RESP of its own fields (30_encoding.md R97, R99). -/
theorem IsResponse.respBytes_eq {c : Params} {f : Frame} (hf : IsResponse c f) :
    respBytes c (uidOf f) (payloadOf f) f[25] = f.toList := by
  obtain ⟨g, bytes, hg, uid, payload, terminator⟩ := respBytes_isResponse c (uidOf f) (payloadOf f) f[25]
  rw [← bytes, IsResponse.ext hg hf uid payload terminator]

/-! Both directions of the round trip (30_encoding.md R100, R107, R108). -/

/-- The decoder reads an operation from its packet. -/
theorem decode_encode (c : Params) (i : Instr) : decode c (encode c i) = .ok i := by
  cases i with
  | reset d interval =>
    rw [encode, bytesOfWord, decode_reset c _ (head?_bytesOfNat d), natOfBytes_bytesOfNat, wordOfBytes_bytesOfWord]
  | setup => exact decode_setup c
  | tick now => rw [encode, bytesOfWord, decode_tick, wordOfBytes_bytesOfWord]
  | rxArrive b => exact decode_rxArrive c b
  | gate => exact decode_gate c
  | sched now => rw [encode, bytesOfWord, decode_sched, wordOfBytes_bytesOfWord]
  | drain now => rw [encode, bytesOfWord, decode_drain, wordOfBytes_bytesOfWord]
  | rxbSeek b => exact decode_rxbSeek c b
  | rxbAcc b now => rw [encode, bytesOfWord, decode_rxbAcc, wordOfBytes_bytesOfWord]
  | complete now => rw [encode, bytesOfWord, decode_complete, wordOfBytes_bytesOfWord]
  | bccChk f => exact decode_bccChk c f
  | uidx f => exact decode_uidx c f
  | debStore u t =>
    rw [encode, uidBytes, bytesOfWord]
    simp only [List.cons_append, List.nil_append, decode_debStore, wordOfBytes_bytesOfWord]
  | debFire u => exact decode_debFire c u.u0 u.u1 u.u2 u.u3
  | pollRead =>
    rw [encode, decode_pf15]
    exact (decodePf15_ok_iff _ _).mpr ⟨rfl, rfl⟩
  | resp u p e =>
    obtain ⟨f, bytes, hf, rfl, rfl, rfl⟩ := respBytes_isResponse c u p e
    rw [encode, ← bytes, decode_rf26]
    exact (decodeRf26_toList_ok_iff c f _).mpr ⟨hf, rfl⟩

/-- A packet from which an operation is read is that operation's packet. -/
theorem encode_of_decode (c : Params) (p : Packet) (i : Instr) (h : decode c p = .ok i) : encode c i = p := by
  obtain ⟨format, bytes⟩ := p
  cases format with
  | opcode8 =>
    rw [decode_opcode8] at h
    obtain ⟨code, args, rfl, read⟩ := decodeOpcode8_ok bytes i h
    rw [encode_of_decodeOperation c _ args i read, ← byte_of_toNat code _ rfl]
    rfl
  | pf15 =>
    rw [decode_pf15] at h
    obtain ⟨rfl, rfl⟩ := (decodePf15_ok_iff bytes i).mp h
    rfl
  | rf26 =>
    rw [decode_rf26] at h
    obtain ⟨f, rfl⟩ := decodeRf26_ok_frame c bytes i h
    obtain ⟨hf, rfl⟩ := (decodeRf26_toList_ok_iff c f i).mp h
    exact congrArg (Packet.mk .rf26) hf.respBytes_eq

/-- Every operation is well formed (log entry 3). -/
theorem wellFormed_eq_true (i : Instr) : wellFormed i = true := by
  cases i <;> rfl

end Sys2Proof.Machine
end

section
/-! A response on the wire (30_encoding.md R97, R98, R107): its 26 bytes arrive, a DRAIN judges them by their checksum, and
one TICK after the arrival makes one read of the debouncer of them. -/

namespace Sys2Proof.Machine

open Sys2Proof.Safety

/-! The arrival. -/

@[simp] theorem respBytes_length (c : Params) (u : Uid) (p : Payload) (e : Byte) : (respBytes c u p e).length = 26 := by
  obtain ⟨f, bytes, -⟩ := respBytes_isResponse c u p e
  rw [← bytes, Vector.length_toList]

/-- After the arrival of at least one byte the queue is within its depth (20_memory.md R68). -/
theorem hasRoom_rxPushAll {bs : List Byte} (hbs : bs ≠ []) (s : State) : HasRoom (rxPushAll bs s) 0 := by
  induction bs generalizing s with
  | nil => exact absurd rfl hbs
  | cons b bs ih =>
    cases bs with
    | nil => exact hasRoom_rxPush b
    | cons b' bs => exact ih (List.cons_ne_nil b' bs) (rxPush s b)

/-- With room the 26 bytes of a RESP stand in the queue in order (30_encoding.md R107). -/
theorem exec_resp_of_room {s : State} (hroom : HasRoom s 26) (u : Uid) (p : Payload) (e : Byte) :
    exec (.resp u p e) s = .next { s with rxq := s.rxq ++ respBytes s.cfg u p e } := by
  rw [exec_resp, rxPushAll_of_room _ _ (by rwa [respBytes_length])]

/-! The DRAIN of one frame. -/

/-- The state with a frame taken from the queue into the cells `m`, at the start of a search. -/
def frameTaken (m : Memory) (s : State) : State := { s with rxq := [], buf := m, bufLen := 0 }

/-- A DRAIN of 26 bytes that start with the header, from the start of a search: the checksum alone decides whether the
debouncer reads the frame or it is dropped (42_frame_sync.md R170, 60_exceptions.md R242). -/
theorem drain_headered {s : State} (now : Time) (f : Frame) (hw : Memory.wf s.buf = true)
    (hs : s.syncState = .seekingHeader) (hi : s.hdrIdx = 0) (hf : ∀ k (_ : k < 4), f[k] = headerByte s.cfg k)
    (hq : s.rxq = f.toList) :
    ∃ m, Memory.wf m = true ∧ (∀ k (_ : k < 26), Memory.read m k = f[k]) ∧
      (ChecksumHolds f → drain now s = deb (uidOf f) now (frameTaken m s)) ∧
      (¬ ChecksumHolds f → drain now s = raise .checksumMismatch (frameTaken m s)) := by
  obtain ⟨m, hm, frame, reads, received⟩ := receiveAll_frame26 now { s with rxq := [] } f hs hi hw hf
  have taken : resetSync (parkedAt m 25 { s with rxq := [] }) = frameTaken m s := by
    simp only [resetSync, parkedAt, frameTaken, hs, hi]
  have judged : drain now s =
      if bccAccepts f = true then deb (uidOf f) now (frameTaken m s)
      else raise .checksumMismatch (frameTaken m s) := by
    rw [drain_eq, hq, received, complete_eq, taken, show (parkedAt m 25 _).buf.frame = f from frame, uidField_eq]
  refine ⟨m, hm, reads, fun holds => ?_, fun fails => ?_⟩
  · rw [judged, if_pos ((bccAccepts_iff f).mpr holds)]
  · rw [judged, if_neg fun accepts => fails ((bccAccepts_iff f).mp accepts)]

/-! The TICK that drains it. -/

/-- A processed TICK (40_tick_gate.md R121). -/
theorem tickBody_processed {s : State} (now : Time) (h : NextTickProcessed s) :
    tickBody now s =
      { drain now (sched now { countTick s with inTick := true, clock := now }) with inTick := false } := by
  rw [tickBody_eq, if_pos ((gatePasses_iff s).mpr h)]

/-- SCHED writes no field that a received byte reads or writes (40_tick_gate.md R129). -/
theorem sched_withOutside (now : Time) (s : State) : sched now s = withOutside (sched now s) s := by
  rcases sched_cases now s with ⟨-, e⟩ | ⟨-, e⟩ <;> rw [e] <;> rfl

@[simp] theorem sched_rxq (now : Time) (s : State) : (sched now s).rxq = s.rxq := by
  rcases sched_cases now s with ⟨-, e⟩ | ⟨-, e⟩ <;> rw [e]
  rfl

@[simp] theorem sched_linkUp (now : Time) (s : State) : (sched now s).linkUp = s.linkUp := by
  rcases sched_cases now s with ⟨-, e⟩ | ⟨-, e⟩ <;> rw [e]
  rfl

/-- DEB does not read `in_tick`. -/
theorem deb_inTick (u : Uid) (t : Time) (s : State) (b : Bool) :
    deb u t { s with inTick := b } = { deb u t s with inTick := b } := by
  have e : windowExpired t { s with inTick := b } = windowExpired t s := rfl
  unfold deb
  rw [e]
  split <;> rfl

/-- A processed TICK that finds one accepted frame in the queue, and the synchronizer at the start of a search, makes one
read of the debouncer of it. The read finds the frame's bytes in BUF, and all else that it reads or writes unchanged. -/
theorem tickBody_headered {s : State} (now : Time) (f : Frame) (hp : NextTickProcessed s)
    (hw : Memory.wf s.buf = true) (hs : s.syncState = .seekingHeader) (hi : s.hdrIdx = 0)
    (hf : IsResponse s.cfg f) (hq : s.rxq = f.toList) :
    ∃ (a : State) (m : Memory), Memory.wf m = true ∧ a.linkUp = s.linkUp ∧ a.inTick = false ∧ a.rxq = [] ∧
      tickBody now s = deb (uidOf f) now (withOutside a (frameTaken m s)) := by
  obtain ⟨w, scheduled, outside, linkUp, rxq⟩ :
      ∃ w, sched now { countTick s with inTick := true, clock := now } = w ∧ w = withOutside w s ∧
        w.linkUp = s.linkUp ∧ w.rxq = s.rxq :=
    ⟨_, rfl, sched_withOutside now _, sched_linkUp now _, sched_rxq now _⟩
  have buf : w.buf = s.buf := (congrArg State.buf outside :)
  have syncState : w.syncState = s.syncState := (congrArg State.syncState outside :)
  have hdrIdx : w.hdrIdx = s.hdrIdx := (congrArg State.hdrIdx outside :)
  have cfg : w.cfg = s.cfg := (congrArg State.cfg outside :)
  obtain ⟨m, hm, -, accepted, -⟩ := drain_headered (s := w) now f (by rwa [buf]) (syncState.trans hs)
    (hdrIdx.trans hi) (by rw [cfg]; exact hf.header) (rxq.trans hq)
  refine ⟨{ w with rxq := [], inTick := false }, m, hm, linkUp, rfl, rfl, ?_⟩
  have ended : ({ frameTaken m w with inTick := false } : State) =
      withOutside { w with rxq := [], inTick := false } (frameTaken m s) := by
    rw [outside]
    rfl
  rw [tickBody_processed now hp, scheduled, accepted hf.checksum, ← ended]
  exact (deb_inTick (uidOf f) now (frameTaken m w) false).symm

/-- The debouncer leaves a ready state ready. -/
theorem ready_deb {s : State} (h : Ready s) (u : Uid) (t : Time) : Ready (deb u t s) := by
  obtain ⟨linkUp, inTick, rxq, seeking, hdrIdx, divider, room, buf⟩ := h
  rcases deb_cases u t s with ⟨-, e⟩ | ⟨-, e⟩ <;> rw [e] <;>
    exact ⟨linkUp, inTick, rxq, seeking, hdrIdx, divider, room, buf⟩

/-- A RESP and the TICK after it, from a ready state, make one read of the debouncer with the sample of the TICK, again in
a ready state, where nothing else that the read uses has changed. -/
theorem execAll_resp_tick {s : State} (h : Ready s) (u : Uid) (p : Payload) (e : Byte) (now : Time) :
    ∃ (a : State) (m : Memory), Ready (withOutside a (frameTaken m s)) ∧
      execAll [.resp u p e, .tick now] s = .next (deb u now (withOutside a (frameTaken m s))) := by
  obtain ⟨f, bytes, hf, rfl, -, -⟩ := respBytes_isResponse s.cfg u p e
  have arrived : exec (.resp (uidOf f) p e) s = .next { s with rxq := f.toList } := by
    rw [exec_resp_of_room h.room, h.rxq, List.nil_append, bytes]
  have processed : NextTickProcessed { s with rxq := f.toList } := by
    rw [NextTickProcessed, h.divider, Nat.mod_one]
  have ticked : exec (.tick now) { s with rxq := f.toList } = .next (tickBody now { s with rxq := f.toList }) :=
    exec_tick now _ h.linkUp h.inTick
  obtain ⟨a, m, hm, linkUp, inTick, rxq, body⟩ :=
    tickBody_headered now f processed h.buf h.seeking h.hdrIdx hf rfl
  have room : HasRoom (withOutside a (frameTaken m s)) 26 := by
    intro d hd
    have fits := h.room d hd
    rw [h.rxq, ← rxq] at fits
    exact fits
  refine ⟨a, m, ⟨linkUp.trans h.linkUp, inTick, rxq, h.seeking, h.hdrIdx, h.divider, room, hm⟩, ?_⟩
  rw [execAll_cons _ _ _ _ arrived, execAll_cons _ _ _ _ ticked, body]
  rfl

/-! Waiting packets (30_encoding.md R101). -/

/-- The oldest packet, where it is an operation, is carried out on the state without it. -/
theorem step_of_decode_ok {s : State} {p : Packet} {rest : List Packet} {i : Instr} (hp : s.pending = p :: rest)
    (hd : decode s.cfg p = .ok i) : step s = exec i { s with pending := rest } := by
  simp only [step, fetch, hp, hd]

/-- The oldest packet, where it is no operation, is refused with the decoder's reason. -/
theorem step_of_decode_error {s : State} {p : Packet} {rest : List Packet} {e : DecodeError}
    (hp : s.pending = p :: rest) (hd : decode s.cfg p = .error e) : step s = .refused (.undecodable e) := by
  simp only [step, fetch, hp, hd]

/-- With nothing waiting a step is idle (60_exceptions.md R257). -/
theorem step_of_pending_nil {s : State} (hp : s.pending = []) : step s = .next s := by
  simp only [step, fetch, hp]

end Sys2Proof.Machine
end

section
/-! The obligations of 30_encoding.md. -/

namespace Sys2Proof.Proofs.EncodingFamily

open Sys2Proof.Machine Sys2Proof.Safety

/-- Settles O54, operation by operation. -/
theorem decodeInvertsEncode : Obligations.DecodeInvertsEncode := by
  unfold Obligations.DecodeInvertsEncode
  exact fun c i _ => decode_encode c i

/-- Settles O55, format by format: the argument bytes, the poll frame and the response are each determined by what is
read from them. -/
theorem encodeInvertsDecode : Obligations.EncodeInvertsDecode := by
  unfold Obligations.EncodeInvertsDecode
  exact fun c p i h => ⟨wellFormed_eq_true i, encode_of_decode c p i h⟩

/-- Settles O20: with room the 26 bytes stand behind those that wait; in any case the queue ends within its depth. -/
theorem responseArrivesByteByByte : Obligations.ResponseArrivesByteByByte := by
  unfold Obligations.ResponseArrivesByteByByte
  intro s u p e
  refine ⟨fun hroom => ?_, ?_⟩
  · obtain ⟨f, bytes, fields⟩ := respBytes_frame s.cfg u p e
    exact ⟨f, by rw [exec_resp_of_room hroom, bytes], fields⟩
  · have arriving : respBytes s.cfg u p e ≠ [] := List.ne_nil_of_length_pos (by simp)
    refine ⟨(rxPushAll (respBytes s.cfg u p e) s).rxq, (rxPushAll (respBytes s.cfg u p e) s).freeCount, ?_, ?_⟩
    · rw [exec_resp, ← rxPushAll_frame]
    · intro d hd
      have depth := hasRoom_rxPushAll arriving s d
      rw [rxPushAll_frame] at depth
      exact depth hd

/-- Settles O27 by `drain_headered`: the read is a store or an event, the dropped frame counts. -/
theorem headeredRunIsJudgedByChecksum : Obligations.HeaderedRunIsJudgedByChecksum := by
  unfold Obligations.HeaderedRunIsJudgedByChecksum
  intro s now f hw hs hi hf hq
  obtain ⟨m, -, reads, accepted, dropped⟩ := drain_headered now f hw hs hi hf hq
  refine ⟨drain now s, exec_drain now s, ?_, fun fails => ?_, fun holds opens => ?_, fun holds closes => ?_⟩
  · by_cases holds : ChecksumHolds f
    · rw [accepted holds]
      rcases deb_cases (uidOf f) now (frameTaken m s) with ⟨-, e⟩ | ⟨-, e⟩ <;> rw [e] <;> exact reads
    · rw [dropped holds, raise_checksumMismatch]
      exact reads
  · rw [dropped fails, raise_checksumMismatch]
    rfl
  · rw [accepted holds, deb_of_opens _ _ (frameTaken m s) opens]
    rfl
  · rw [accepted holds, deb_of_not_opens _ _ (frameTaken m s) closes]
    rfl

/-- Settles O39: the response and the TICK make one read of the debouncer, which stores or fires. -/
theorem responseIsOneAcceptedRead : Obligations.ResponseIsOneAcceptedRead := by
  unfold Obligations.ResponseIsOneAcceptedRead
  intro s u p e now hready
  obtain ⟨a, m, ready, run⟩ := execAll_resp_tick hready u p e now
  refine ⟨_, run, ready_deb ready u now, ?_⟩
  by_cases opens : OpensCandidate u now s
  · rw [deb_of_opens u now (withOutside a (frameTaken m s)) opens]
    exact ⟨rfl, rfl, rfl, fun _ => ⟨rfl, rfl, rfl, rfl⟩, fun closes => absurd opens closes⟩
  · rw [deb_of_not_opens u now (withOutside a (frameTaken m s)) opens]
    exact ⟨rfl, rfl, rfl, fun opens' => absurd opens' opens, fun _ => ⟨rfl, rfl, rfl, rfl⟩⟩

/-- Settles O57: an operation is read from 26 bytes only, and then by `decodeRf26_toList_ok_iff`. -/
theorem responsePacketsAreExactlyResponses : Obligations.ResponsePacketsAreExactlyResponses := by
  unfold Obligations.ResponsePacketsAreExactlyResponses
  intro c bytes i
  rw [decode_rf26]
  constructor
  · intro h
    obtain ⟨f, rfl⟩ := decodeRf26_ok_frame c bytes i h
    obtain ⟨⟨head, checksum⟩, hi⟩ := (decodeRf26_toList_ok_iff c f i).mp h
    exact ⟨f, payloadOf f, rfl, head, checksum, payloadOf_getElem f, hi⟩
  · rintro ⟨f, p, rfl, head, checksum, payload, rfl⟩
    rw [eq_payloadOf f p payload]
    exact (decodeRf26_toList_ok_iff c f _).mpr ⟨⟨head, checksum⟩, rfl⟩

/-- Settles O16: a fixed frame, read off its definition. -/
theorem pollFrameIsFixed : Obligations.PollFrameIsFixed := by
  unfold Obligations.PollFrameIsFixed
  exact ⟨rfl, by decide, rfl⟩

/-- Settles O17. -/
theorem pollReadIsOneWriteRequest : Obligations.PollReadIsOneWriteRequest := by
  unfold Obligations.PollReadIsOneWriteRequest
  exact fun s => ⟨Config.txDelivered s.freeCount, exec_pollRead s⟩

/-- Settles O56: the decoder refuses the packet, so the step does. -/
theorem unassignedCodesAreRefused : Obligations.UnassignedCodesAreRefused := by
  unfold Obligations.UnassignedCodesAreRefused
  exact fun s code args rest hcode hp => step_of_decode_error hp (decode_unassigned s.cfg code args hcode)

/-- Settles O58. -/
theorem stepRunsTheDecodedOperation : Obligations.StepRunsTheDecodedOperation := by
  unfold Obligations.StepRunsTheDecodedOperation
  exact ⟨fun _ _ _ _ hp hd => step_of_decode_ok hp hd, fun _ _ _ _ hp hd => step_of_decode_error hp hd,
    fun _ hp => step_of_pending_nil hp⟩

/-- Settles O59: the coded packets by the decoder's equation for their code, frame A as the packet of its operation. -/
theorem writtenOutPacketsDecode : Obligations.WrittenOutPacketsDecode := by
  unfold Obligations.WrittenOutPacketsDecode
  intro c h2 h3
  refine ⟨decode_tick c 0x00 0x00 0x00 0xC9, decode_rxArrive c 0x99, ?_, ?_, decode_debFire c 0x04 0x1A 0x2B 0x3C, ?_,
    ?_⟩
  · exact decode_reset c [0x03] (by decide) 0x00 0x00 0x00 0xC8
  · exact decode_reset c [0x01, 0x00, 0x00, 0x00, 0x00] (by decide) 0x00 0x00 0x00 0xC8
  · exact decode_encode c .pollRead
  · rw [← decode_encode c (.resp _ _ _)]
    simp only [encode, respBytes, header_eq, headerByte, h2, h3]
    rfl

end Sys2Proof.Proofs.EncodingFamily
end

section
/-! The TICK (40_tick_gate.md): a skipped and a processed one, a row of them, the independence of SCHED and DRAIN, and
what they put into the two logs. -/

namespace Sys2Proof.Machine

open Sys2Proof.Safety

/-! A skipped TICK. -/

theorem setInTick_self {s : State} {b : Bool} (h : s.inTick = b) : ({ s with inTick := b } : State) = s := by
  subst h
  rfl

/-- A skipped TICK counts and does nothing else (40_tick_gate.md R126). -/
theorem tickBody_skipped {s : State} (now : Time) (hi : s.inTick = false) (h : ¬ NextTickProcessed s) :
    tickBody now s = countTick s := by
  rw [tickBody_eq, if_neg (mt (gatePasses_iff s).mp h)]
  exact setInTick_self hi

/-! A processed TICK. -/

/-- SCHED does not write `in_tick`. -/
theorem sched_keeps_inTick (now : Time) (s : State) : (sched now s).inTick = s.inTick := by
  rcases sched_cases now s with ⟨-, e⟩ | ⟨-, e⟩ <;> rw [e]
  rfl

/-- DRAIN does not read `in_tick`. -/
theorem drain_inTick (now : Time) (s : State) (b : Bool) :
    drain now { s with inTick := b } = { drain now s with inTick := b } := by
  have outside := drain_outside now { s with inTick := b } s rfl
  rw [← (drain_frame now s).1]
  exact outside

/-- Only a further TICK, SETUP or RESET reads `in_tick`, so a processed TICK is SCHED and DRAIN on the counted state
(40_tick_gate.md R121). -/
theorem tickBody_eq_drain_sched {s : State} (now : Time) (hi : s.inTick = false) (h : NextTickProcessed s) :
    tickBody now s = drain now (sched now { countTick s with clock := now }) := by
  have scheduled : sched now { countTick s with inTick := true, clock := now } =
      { sched now { countTick s with clock := now } with inTick := true } :=
    sched_inTick now { countTick s with clock := now } true
  have idle : (sched now { countTick s with clock := now }).inTick = false :=
    (sched_keeps_inTick now { countTick s with clock := now }).trans hi
  calc tickBody now s
    _ = { drain now (sched now { countTick s with inTick := true, clock := now }) with inTick := false } :=
      tickBody_processed now h
    _ = { drain now (sched now { countTick s with clock := now }) with inTick := false } := by
      rw [scheduled, drain_inTick]
    _ = drain now (sched now { countTick s with clock := now }) := by
      rw [← drain_inTick, setInTick_self idle]

/-! A row of TICKs. -/

/-- The state after TICKs that are not refused, one for each sample. -/
def ticks (samples : List Time) (s : State) : State := samples.foldl (fun t now => tickBody now t) s

@[simp] theorem ticks_nil (s : State) : ticks [] s = s := rfl

@[simp] theorem ticks_cons (now : Time) (samples : List Time) (s : State) :
    ticks (now :: samples) s = ticks samples (tickBody now s) := rfl

/-- Once set up, no TICK of a row is refused. -/
theorem execAll_ticks {s : State} (samples : List Time) (hl : s.linkUp = true) (hi : s.inTick = false) :
    execAll (samples.map .tick) s = .next (ticks samples s) := by
  induction samples generalizing s with
  | nil => rfl
  | cons now samples ih =>
    obtain ⟨linkUp, inTick, -, -, -⟩ := tickBody_frame now s
    rw [List.map_cons, execAll_cons _ _ _ _ (exec_tick now s hl hi), ticks_cons]
    exact ih (linkUp.trans hl) inTick

/-- Each TICK of a row counts, skipped or processed. -/
theorem ticks_frame {s : State} (samples : List Time) (hi : s.inTick = false) :
    (ticks samples s).linkUp = s.linkUp ∧ (ticks samples s).inTick = false ∧
      (ticks samples s).tickCounter = s.tickCounter + samples.length ∧ (ticks samples s).cfg = s.cfg := by
  induction samples generalizing s with
  | nil => exact ⟨rfl, hi, rfl, rfl⟩
  | cons now samples ih =>
    obtain ⟨linkUp, inTick, counter, cfg, -⟩ := tickBody_frame now s
    obtain ⟨linkUp', inTick', counter', cfg'⟩ := ih inTick
    refine ⟨linkUp'.trans linkUp, inTick', ?_, cfg'.trans cfg⟩
    rw [ticks_cons, counter', counter, List.length_cons]
    omega

/-- As long as the count stays below the divider, every TICK of a row is skipped (40_tick_gate.md R125). -/
theorem ticks_skipped {s : State} (samples : List Time) (hi : s.inTick = false)
    (h : s.tickCounter + samples.length < (s.cfg.tickDivider : Nat)) :
    ticks samples s = { s with tickCounter := s.tickCounter + samples.length } := by
  induction samples generalizing s with
  | nil => rfl
  | cons now samples ih =>
    rw [List.length_cons] at h
    have skipped : ¬ NextTickProcessed s := by
      rw [NextTickProcessed, Nat.mod_eq_of_lt (by omega)]
      exact Nat.succ_ne_zero _
    have below : (countTick s).tickCounter + samples.length < ((countTick s).cfg.tickDivider : Nat) := by
      rw [countTick_tickCounter, countTick_cfg]
      omega
    rw [ticks_cons, tickBody_skipped now hi skipped, ih (s := countTick s) hi below, countTick_tickCounter,
      List.length_cons, Nat.add_right_comm, Nat.add_assoc]
    rfl

/-! SCHED and DRAIN (40_tick_gate.md R129). -/

/-- The request gate reads the timestamp and the configuration, and DRAIN writes neither. -/
theorem requestDue_drain (now t : Time) (s : State) : requestDue now (drain t s) = requestDue now s := by
  obtain ⟨outside, cfg⟩ := drain_frame t s
  have timestamp : s.lastRequestTs = (drain t s).lastRequestTs := (congrArg State.lastRequestTs outside :)
  rw [requestDue, requestDue, cfg, ← timestamp]

theorem drain_sched (now : Time) (s : State) : drain now (sched now s) = sched now (drain now s) := by
  obtain ⟨outside, -⟩ := drain_frame now s
  have drained : drain now (sched now s) = withOutside { sched now s with rxq := [] } (drain now s) := by
    rw [← drain_outside now (sched now s) s (sched_rxq now s), ← sched_withOutside]
  rcases sched_cases now s with ⟨due, e⟩ | ⟨idle, e⟩ <;>
    rcases sched_cases now (drain now s) with ⟨due', e'⟩ | ⟨idle', e'⟩
  · rw [drained, e, e', ← outside]
    rfl
  · rw [requestDue_drain, due] at idle'
    cases idle'
  · rw [requestDue_drain, idle] at due'
    cases due'
  · rw [e, e']

/-! The outputs of a TICK. -/

/-- SCHED makes at most one write request, of the poll frame, tagged with its sample (41_request_scheduler.md R140). -/
theorem sched_outputs (now : Time) (s : State) :
    ∃ ws, (sched now s).txlog = s.txlog ++ ws ∧ ws.length ≤ 1 ∧ (∀ w ∈ ws, w.now = now ∧ w.frame = pollFrame) ∧
      (sched now s).evlog = s.evlog := by
  rcases sched_cases now s with ⟨-, e⟩ | ⟨-, e⟩ <;> rw [e]
  · exact ⟨[⟨now, pollFrame, Config.txDelivered s.freeCount⟩], rfl, le_rfl, by simp, rfl⟩
  · exact ⟨[], by simp, Nat.zero_le 1, by simp, rfl⟩

/-- How many bytes of an unfinished frame have been taken in: the matched header, or the bytes parked in BUF. -/
def bytesTaken (s : State) : Nat :=
  match s.syncState with
  | .seekingHeader => s.hdrIdx.val
  | .accumulating => s.bufLen.val

theorem bytesTaken_seeking {s : State} (h : s.syncState = .seekingHeader) : bytesTaken s = s.hdrIdx.val := by
  simp only [bytesTaken, h]

theorem bytesTaken_accumulating {s : State} (h : s.syncState = .accumulating) : bytesTaken s = s.bufLen.val := by
  simp only [bytesTaken, h]

theorem bytesTaken_le (s : State) : bytesTaken s ≤ 25 := by
  cases h : s.syncState with
  | seekingHeader =>
    rw [bytesTaken_seeking h]
    omega
  | accumulating =>
    rw [bytesTaken_accumulating h]
    omega

/-- RXB.SEEK emits nothing, and takes in at most its one byte. -/
theorem rxbSeek_outputs (b : Byte) {s : State} (h : s.syncState = .seekingHeader) :
    (rxbSeek b s).evlog = s.evlog ∧ bytesTaken (rxbSeek b s) ≤ bytesTaken s + 1 := by
  rcases rxbSeek_cases b s with ⟨-, _, e⟩ | ⟨-, last, e⟩ | ⟨-, e⟩ <;> rw [e, bytesTaken_seeking h]
  · exact ⟨rfl, (bytesTaken_seeking (by exact h)).le⟩
  · rw [last]
    exact ⟨rfl, (bytesTaken_accumulating rfl).le⟩
  · exact ⟨rfl, (bytesTaken_seeking (by exact h)).le.trans (Nat.zero_le _)⟩

/-- RXB.ACC takes in its byte, or makes the 26 bytes taken in into at most one event (45_debounce.md R224). -/
theorem rxbAcc_outputs (b : Byte) (now : Time) {s : State} (h : s.syncState = .accumulating) :
    ∃ es, (rxbAcc b now s).evlog = s.evlog ++ es ∧ (∀ e ∈ es, e.now = now) ∧
      26 * es.length + bytesTaken (rxbAcc b now s) ≤ bytesTaken s + 1 := by
  rw [bytesTaken_accumulating h]
  rcases rxbAcc_cases b now s with ⟨_, e⟩ | ⟨full, e⟩ <;> rw [e]
  · exact ⟨[], by simp, by simp, by simpa using (bytesTaken_accumulating (by exact h)).le⟩
  · obtain ⟨es, evlog, tagged, one, seeking, index, -, -⟩ :=
      complete_outputs now { s with buf := s.buf.write 25 b }
    refine ⟨es, evlog, tagged, ?_⟩
    rw [bytesTaken_seeking seeking, index, full]
    show 26 * es.length + 0 ≤ 25 + 1
    omega

/-- A received byte: 26 of them stand behind each event. -/
theorem rxByte_outputs (b : Byte) (now : Time) (s : State) :
    ∃ es, (rxByte b now s).evlog = s.evlog ++ es ∧ (∀ e ∈ es, e.now = now) ∧
      26 * es.length + bytesTaken (rxByte b now s) ≤ bytesTaken s + 1 := by
  cases h : s.syncState with
  | seekingHeader =>
    obtain ⟨evlog, taken⟩ := rxbSeek_outputs b h
    rw [rxByte_seeking b now s h]
    exact ⟨[], by simp [evlog], by simp, by simpa using taken⟩
  | accumulating =>
    rw [rxByte_accumulating b now s h]
    exact rxbAcc_outputs b now h

theorem receiveAll_outputs (now : Time) (bs : List Byte) (s : State) :
    ∃ es, (receiveAll now bs s).evlog = s.evlog ++ es ∧ (∀ e ∈ es, e.now = now) ∧
      26 * es.length + bytesTaken (receiveAll now bs s) ≤ bytesTaken s + bs.length := by
  induction bs generalizing s with
  | nil => exact ⟨[], by simp, by simp, by simp⟩
  | cons b bs ih =>
    obtain ⟨es, evlog, tagged, cost⟩ := rxByte_outputs b now s
    obtain ⟨es', evlog', tagged', cost'⟩ := ih (rxByte b now s)
    refine ⟨es ++ es', ?_, List.forall_mem_append.mpr ⟨tagged, tagged'⟩, ?_⟩
    · rw [receiveAll_cons, evlog', evlog, List.append_assoc]
    · rw [receiveAll_cons, List.length_append, List.length_cons]
      omega

/-- Each event of a DRAIN takes 26 of the bytes that waited and of the at most 25 taken in before. -/
theorem drain_outputs (now : Time) (s : State) :
    ∃ es, (drain now s).evlog = s.evlog ++ es ∧ (∀ e ∈ es, e.now = now) ∧
      26 * es.length ≤ s.rxq.length + 25 := by
  obtain ⟨es, evlog, tagged, cost⟩ := receiveAll_outputs now s.rxq { s with rxq := [] }
  have parked := bytesTaken_le { s with rxq := [] }
  rw [drain_eq]
  exact ⟨es, evlog, tagged, by omega⟩

end Sys2Proof.Machine
end

section
/-! The obligations of 40_tick_gate.md. -/

namespace Sys2Proof.Proofs.TickFamily

open Sys2Proof.Machine Sys2Proof.Safety

/-- Settles O7. -/
theorem skippedTickOnlyCounts : Obligations.SkippedTickOnlyCounts := by
  unfold Obligations.SkippedTickOnlyCounts
  intro s now hl hi skipped
  rw [exec_tick now s hl hi, tickBody_skipped now hi skipped]
  rfl

/-- Settles O8: GATE by itself is the counted state with its answer, so with the old `result` it is the state that SCHED
and DRAIN of the TICK run on. -/
theorem processedTickRunsGateSchedDrain : Obligations.ProcessedTickRunsGateSchedDrain := by
  unfold Obligations.ProcessedTickRunsGateSchedDrain
  intro s now hl hi processed
  have passes : gatePasses (countTick s) = true := (gatePasses_iff s).mpr processed
  refine ⟨_, _, _, exec_gate s, congrArg OpResult.gate passes, exec_sched now _, exec_drain now _, ?_,
    drain_rxq now _⟩
  rw [exec_tick now s hl hi, tickBody_eq_drain_sched now hi processed]
  rfl

/-- Settles O10: a row of TICKs counts each of them, and below the divider each of them is skipped. -/
theorem everyNthTickIsProcessed : Obligations.EveryNthTickIsProcessed := by
  unfold Obligations.EveryNthTickIsProcessed
  intro s samples hl hi start
  obtain ⟨linkUp, inTick, counter, cfg⟩ := ticks_frame samples hi
  have skipped := ticks_skipped samples hi
  rw [start, Nat.zero_add] at counter skipped
  refine ⟨_, execAll_ticks samples hl hi, counter, linkUp.trans hl, inTick, cfg, ?_, skipped⟩
  rw [NextTickProcessed, counter, cfg, Nat.dvd_iff_mod_eq_zero]

/-- Settles O11: a skipped TICK has no output; of a processed one SCHED makes the request and DRAIN the events. -/
theorem tickOutputsAreBounded : Obligations.TickOutputsAreBounded := by
  unfold Obligations.TickOutputsAreBounded
  intro s t now h
  obtain ⟨-, hi, rfl⟩ := exec_tick_next now s t h
  by_cases processed : NextTickProcessed s
  · obtain ⟨ws, txlog, one, polls, silent⟩ := sched_outputs now { countTick s with clock := now }
    obtain ⟨es, evlog, tagged, cost⟩ := drain_outputs now (sched now { countTick s with clock := now })
    rw [silent] at evlog
    rw [sched_rxq] at cost
    rw [tickBody_eq_drain_sched now hi processed, drain_txlog]
    exact ⟨ws, es, txlog, one, polls, evlog, tagged, cost⟩
  · rw [tickBody_skipped now hi processed]
    exact ⟨[], [], by simp, by simp, by simp, by simp, by simp, by simp⟩

/-- Settles O22. -/
theorem drainAndSchedAreIndependent : Obligations.DrainAndSchedAreIndependent := by
  unfold Obligations.DrainAndSchedAreIndependent
  refine ⟨fun s now => ⟨_, exec_drain now s, ?_⟩, fun s now => ⟨drain now (sched now s), rfl, ?_⟩⟩
  · obtain ⟨outside, cfg⟩ := drain_frame now s
    rw [← cfg]
    exact outside.symm
  · rw [drain_sched]
    rfl

/-- Settles O4. -/
theorem setupOnlyBringsLinkUp : Obligations.SetupOnlyBringsLinkUp := by
  unfold Obligations.SetupOnlyBringsLinkUp
  intro s hi
  simp only [exec_setup, hi, Bool.false_eq_true, if_false, and_self]

/-- Settles O5: each refusal stands in front of the operation's effect; the zero divider is the model's order of two. -/
theorem hostEventsRefusedOutOfTurn : Obligations.HostEventsRefusedOutOfTurn := by
  unfold Obligations.HostEventsRefusedOutOfTurn
  refine ⟨fun s now hl => ?_, fun s now hl hi => ?_, fun s hi => ?_, fun s d interval hi _ => ?_,
    fun s interval hi => ⟨.reentrant, ?_, .inl rfl⟩⟩
  · simp [exec_tick_eq, hl]
  · simp [exec_tick_eq, hl, hi]
  · simp [exec_setup, hi]
  · simp [exec_reset, hi]
  · simp [exec_reset, hi]

/-- Settles O9. -/
theorem gateCountsThenTests : Obligations.GateCountsThenTests := by
  unfold Obligations.GateCountsThenTests
  exact exec_gate

end Sys2Proof.Proofs.TickFamily
end

section
/-! The request scheduler (41_request_scheduler.md): when SCHED writes, in the spec's elapsed time, and the spacing of
the write requests, which every operation but the bare frame POLL.READ keeps. -/

namespace Sys2Proof.Machine

open Sys2Proof.Safety

/-! The elapsed time (00_scope.md R15). -/

theorem elapsedMs_eq_zero_iff (now since : Time) : elapsedMs now since = 0 ↔ now = since := by
  rw [← elapsed_toNat]
  show (now - since).toNat = (0 : Time).toNat ↔ now = since
  rw [BitVec.toNat_inj, sub_eq_zero]

/-- No elapsed time exceeds the largest interval (41_request_scheduler.md R146). -/
theorem elapsedMs_le_max (now since : Time) : elapsedMs now since ≤ (0xFFFFFFFF : Time).toNat :=
  Nat.le_of_lt_succ (Nat.mod_lt _ (Nat.two_pow_pos 32))

/-! SCHED. -/

/-- SCHED when strictly more than the interval has passed (41_request_scheduler.md R140). -/
theorem sched_of_exceeded {s : State} {now : Time} (h : s.cfg.reqIntervalMs.toNat < elapsedMs now s.lastRequestTs) :
    sched now s = { txWrite now s with lastRequestTs := now } := if_pos ((requestDue_iff now s).mpr h)

/-- SCHED when at most the interval has passed (41_request_scheduler.md R141). -/
theorem sched_of_not_exceeded {s : State} {now : Time}
    (h : elapsedMs now s.lastRequestTs ≤ s.cfg.reqIntervalMs.toNat) : sched now s = s :=
  if_neg (mt (requestDue_iff now s).mp h.not_gt)

/-- SCHED never writes twice at one sample, whatever the interval: `0 > REQ_INTERVAL_MS` is false
(41_request_scheduler.md R146). -/
theorem sched_same_sample {s : State} {now : Time} (h : now = s.lastRequestTs) : sched now s = s := by
  have stopped : elapsedMs now s.lastRequestTs = 0 := (elapsedMs_eq_zero_iff now s.lastRequestTs).mpr h
  exact sched_of_not_exceeded (stopped.trans_le (Nat.zero_le _))

end Sys2Proof.Machine

namespace Sys2Proof.Safety

open Sys2Proof.Machine

/-! The spacing of the write requests (41_request_scheduler.md R145). -/

/-- The request `b` comes more than the interval after the request `a`. -/
def MoreThanIntervalApart (interval : Time) (a b : TxRequest) : Prop := interval.toNat < elapsedMs b.now a.now

/-- The log is a chain of requests more than the interval apart, and its last one, if any, carries the timestamp. -/
theorem pollsSpaced_iff (s : State) :
    PollsSpaced s ↔
      s.txlog.IsChain (MoreThanIntervalApart s.cfg.reqIntervalMs) ∧
        ∀ a ∈ s.txlog.getLast?, a.now = s.lastRequestTs := by
  refine and_congr ?_ ?_
  · rw [List.isChain_iff_forall_rel_of_append_cons_cons]
    exact ⟨fun h a b xs ys => h xs a b ys, fun h xs a b ys => @h a b xs ys⟩
  · simp only [Option.mem_def, List.getLast?_eq_some_iff]
    exact ⟨fun h a ⟨xs, e⟩ => h xs a e, fun h xs a e => h a ⟨xs, e⟩⟩

/-- The spacing reads the log of requests, the timestamp and the configuration. -/
theorem pollsSpaced_congr {s t : State} (h : PollsSpaced s) (hx : t.txlog = s.txlog)
    (hts : t.lastRequestTs = s.lastRequestTs) (hc : t.cfg = s.cfg) : PollsSpaced t := by
  unfold PollsSpaced
  rw [hx, hts, hc]
  exact h

/-- The synchronizer writes neither the log of requests nor the timestamp (40_tick_gate.md R129). -/
theorem pollsSpaced_of_withOutside {s t : State} (h : PollsSpaced s) (hframe : withOutside s t = t ∧ t.cfg = s.cfg) :
    PollsSpaced t := by
  obtain ⟨hout, hc⟩ := hframe
  have hx : s.txlog = t.txlog := (congrArg State.txlog hout :)
  have hts : s.lastRequestTs = t.lastRequestTs := (congrArg State.lastRequestTs hout :)
  exact pollsSpaced_congr h hx.symm hts.symm hc

/-- RESET starts an empty log, so a new interval meets no old request. -/
theorem pollsSpaced_construct (d : ℕ+) (interval : Time) (s : State) : PollsSpaced (construct d interval s) :=
  (pollsSpaced_iff _).mpr ⟨.nil, fun _ ha => nomatch ha⟩

/-- SCHED appends a request only when the timestamp, which the last request carries, is more than the interval ago. -/
theorem pollsSpaced_sched {s : State} (h : PollsSpaced s) (now : Time) : PollsSpaced (sched now s) := by
  rcases sched_cases now s with ⟨due, e⟩ | ⟨-, e⟩ <;> rw [e]
  · obtain ⟨spaced, last⟩ := (pollsSpaced_iff s).mp h
    rw [pollsSpaced_iff]
    refine ⟨List.isChain_append.mpr ⟨spaced, .singleton _, fun a ha b hb => ?_⟩, fun b hb => ?_⟩
    · obtain rfl := Option.mem_some.mp hb
      rw [MoreThanIntervalApart, last a ha]
      exact (requestDue_iff now s).mp due
    · rw [txWrite_txlog, List.getLast?_concat] at hb
      obtain rfl := Option.mem_some.mp hb
      rfl
  · exact h

theorem pollsSpaced_drain {s : State} (h : PollsSpaced s) (now : Time) : PollsSpaced (drain now s) := by
  have emptied : PollsSpaced { s with rxq := [] } := pollsSpaced_congr h rfl rfl rfl
  exact pollsSpaced_of_withOutside emptied (drain_frame now s)

/-- Of a TICK only SCHED makes a request (40_tick_gate.md R127). -/
theorem pollsSpaced_tickBody {s : State} (h : PollsSpaced s) (now : Time) : PollsSpaced (tickBody now s) := by
  rcases tickBody_cases now s with ⟨-, e⟩ | ⟨-, e⟩ <;> rw [e]
  · exact pollsSpaced_congr h rfl rfl rfl
  · have start : PollsSpaced { countTick s with inTick := true, clock := now } := pollsSpaced_congr h rfl rfl rfl
    exact pollsSpaced_congr (pollsSpaced_drain (pollsSpaced_sched start now) now) rfl rfl rfl

theorem pollsSpaced_rxPushAll {s : State} (h : PollsSpaced s) (bs : List Byte) : PollsSpaced (rxPushAll bs s) := by
  rw [rxPushAll_frame]
  exact pollsSpaced_congr h rfl rfl rfl

/-- Any operation but POLL.READ keeps the spacing; POLL.READ writes at the clock, with no test of the interval. -/
theorem pollsSpaced_exec {i : Instr} {s t : State} (hs : PollsSpaced s) (hi : i ≠ .pollRead)
    (h : exec i s = .next t) : PollsSpaced t := by
  cases i with
  | reset d interval =>
    obtain ⟨-, hd, rfl⟩ := exec_reset_next d interval s t h
    exact pollsSpaced_construct _ interval s
  | setup =>
    obtain ⟨-, rfl⟩ := exec_setup_next s t h
    exact pollsSpaced_congr hs rfl rfl rfl
  | tick now =>
    obtain ⟨-, -, rfl⟩ := exec_tick_next now s t h
    exact pollsSpaced_tickBody hs now
  | rxArrive b =>
    obtain rfl := Host.Outcome.next.inj h
    exact (pollsSpaced_rxPushAll hs [b] : PollsSpaced (rxPush s b))
  | sched now =>
    obtain rfl := Host.Outcome.next.inj h
    exact pollsSpaced_sched hs now
  | drain now =>
    obtain rfl := Host.Outcome.next.inj h
    exact pollsSpaced_drain hs now
  | rxbSeek b =>
    obtain rfl := Host.Outcome.next.inj h
    exact pollsSpaced_of_withOutside hs (rxbSeek_frame b s)
  | rxbAcc b now =>
    obtain rfl := Host.Outcome.next.inj h
    exact pollsSpaced_of_withOutside hs (rxbAcc_frame b now s)
  | complete now =>
    obtain rfl := Host.Outcome.next.inj h
    exact pollsSpaced_of_withOutside hs (complete_frame now s)
  | pollRead => exact absurd rfl hi
  | resp u p e =>
    obtain rfl := Host.Outcome.next.inj h
    exact pollsSpaced_rxPushAll hs (respBytes s.cfg u p e)
  | gate | bccChk | uidx | debStore | debFire =>
    obtain rfl := Host.Outcome.next.inj h
    exact pollsSpaced_congr hs rfl rfl rfl

end Sys2Proof.Safety
end

section
/-! The obligations of 41_request_scheduler.md. -/

namespace Sys2Proof.Proofs.SchedulerFamily

open Sys2Proof.Machine Sys2Proof.Safety

/-- Settles O14: of the operations admitted only SCHED and a TICK make a request, and only past the interval. -/
theorem pollsStaySpaced : Obligations.PollsStaySpaced := by
  unfold Obligations.PollsStaySpaced
  exact fun _ _ _ hs hi h => pollsSpaced_exec hs hi h

/-- Settles O12: the free bit of the request is the one its count of free values draws. -/
theorem schedWritesExactlyWhenDue : Obligations.SchedWritesExactlyWhenDue := by
  unfold Obligations.SchedWritesExactlyWhenDue
  exact fun s now => ⟨
    fun exceeded => ⟨Config.txDelivered s.freeCount, congrArg Host.Outcome.next (sched_of_exceeded exceeded)⟩,
    fun within => congrArg Host.Outcome.next (sched_of_not_exceeded within)⟩

/-- Settles O13: the largest interval is the largest elapsed time, and against interval 0 any elapsed time but 0 is due;
after a write at the sample the elapsed time is 0. -/
theorem schedExtremeIntervals : Obligations.SchedExtremeIntervals := by
  unfold Obligations.SchedExtremeIntervals
  refine ⟨fun s now largest => ?_, fun s now zero fresh => ?_, fun s now _ same => ?_⟩
  · have within : elapsedMs now s.lastRequestTs ≤ s.cfg.reqIntervalMs.toNat :=
      largest ▸ elapsedMs_le_max now s.lastRequestTs
    exact congrArg Host.Outcome.next (sched_of_not_exceeded within)
  · have exceeded : s.cfg.reqIntervalMs.toNat < elapsedMs now s.lastRequestTs := by
      rw [zero]
      exact Nat.pos_of_ne_zero (mt (elapsedMs_eq_zero_iff now s.lastRequestTs).mp fresh)
    refine ⟨{ txWrite now s with lastRequestTs := now }, congrArg Host.Outcome.next (sched_of_exceeded exceeded), ?_,
      congrArg Host.Outcome.next (sched_same_sample rfl)⟩
    rw [txWrite_txlog, List.length_append, List.length_singleton]
  · exact congrArg Host.Outcome.next (sched_same_sample same)

end Sys2Proof.Proofs.SchedulerFamily
end

section
/-! The micro-operations of the synchronizer (42_frame_sync.md), outcome by outcome in the spec's terms: what RXB.SEEK,
RXB.ACC and COMPLETE answer, and DRAIN as the loop over the queue. -/

namespace Sys2Proof.Machine

open Sys2Proof.Safety

/-! RXB.SEEK. -/

theorem hdrByte_hdrIdx (s : State) : hdrByte s.cfg s.hdrIdx = headerByte s.cfg s.hdrIdx.val := hdrByte_eq s.cfg s.hdrIdx

/-- A match before the last header byte (42_frame_sync.md R164). -/
theorem rxbSeek_of_match {b : Byte} {s : State} (hb : b = headerByte s.cfg s.hdrIdx.val) (hi : s.hdrIdx.val < 3) :
    rxbSeek b s = { s with hdrIdx := s.hdrIdx + 1 } := by
  have next : (⟨s.hdrIdx.val + 1, Nat.succ_lt_succ hi⟩ : Fin 4) = s.hdrIdx + 1 :=
    Fin.ext (Fin.val_add_one_of_lt' (Nat.succ_lt_succ hi)).symm
  rw [rxbSeek, if_pos (hb.trans (hdrByte_hdrIdx s).symm), dif_pos hi, next]

/-- A match of the last header byte (42_frame_sync.md R165). -/
theorem rxbSeek_of_last_match {b : Byte} {s : State} (hb : b = headerByte s.cfg s.hdrIdx.val) (hi : s.hdrIdx = 3) :
    rxbSeek b s = parkedAt (seedHeader s.cfg s.buf) 4 s := by
  have last : ¬ s.hdrIdx.val < 3 := by
    rw [hi]
    decide
  rw [rxbSeek, if_pos (hb.trans (hdrByte_hdrIdx s).symm), dif_neg last, parkedAt]

/-- A mismatch (42_frame_sync.md R166, 60_exceptions.md R241). -/
theorem rxbSeek_of_mismatch {b : Byte} {s : State} (hb : b ≠ headerByte s.cfg s.hdrIdx.val) :
    rxbSeek b s =
      { s with
        hdrIdx := 0
        hdrMismatchCnt := if s.cfg.diag then s.hdrMismatchCnt + 1 else s.hdrMismatchCnt } := by
  rw [rxbSeek, if_neg (mt (·.trans (hdrByte_hdrIdx s)) hb), raise_headerMismatch]

/-- The cells after the header is complete, in the spec's terms (42_frame_sync.md R165). -/
theorem seedHeader_read_eq (c : Params) {m : Memory} (hw : Memory.wf m = true) (k : Nat) :
    (seedHeader c m).read k = if k < 4 then headerByte c k else m.read k := by
  rw [seedHeader_read c m hw k]
  split
  · exact hdrByte_eq c _
  · rfl

/-! COMPLETE. -/

/-- The frame with the right checksum is one read of the debouncer (42_frame_sync.md R170). -/
theorem complete_of_accepted {s : State} (now : Time) (h : ChecksumHolds (cells s)) :
    complete now s = deb (uidOf (cells s)) now (resetSync s) := by
  rw [complete_eq, frame_eq_cells, if_pos ((bccAccepts_iff (cells s)).mpr h), uidField_eq]

/-- The frame with a wrong checksum is dropped (42_frame_sync.md R170, 60_exceptions.md R242). -/
theorem complete_of_rejected {s : State} (now : Time) (h : ¬ ChecksumHolds (cells s)) :
    complete now s =
      { resetSync s with bccFailCnt := if s.cfg.diag then s.bccFailCnt + 1 else s.bccFailCnt } := by
  rw [complete_eq, frame_eq_cells, if_neg (mt (bccAccepts_iff (cells s)).mp h), raise_checksumMismatch]
  rfl

/-! DRAIN. -/

/-- A micro-operation by itself, selected by `sync_state`, is what DRAIN runs on a byte (10_state.md R27). -/
theorem exec_selected (b : Byte) (now : Time) (s : State) :
    exec (if s.syncState = .seekingHeader then .rxbSeek b else .rxbAcc b now) s = .next (rxByte b now s) := by
  cases h : s.syncState with
  | seekingHeader => rw [if_pos rfl, exec_rxbSeek, rxByte_seeking b now s h]
  | accumulating => rw [if_neg (by decide), exec_rxbAcc, rxByte_accumulating b now s h]

/-- The state with the bytes `q` waiting. -/
def withQueue (q : List Byte) (s : State) : State := { s with rxq := q }

theorem withQueue_self {s : State} {q : List Byte} (h : s.rxq = q) : withQueue q s = s := by
  subst h
  rfl

@[simp] theorem withQueue_withQueue (q q' : List Byte) (s : State) : withQueue q (withQueue q' s) = withQueue q s := rfl

/-- A byte received does not depend on the bytes that wait behind it, and leaves them. -/
theorem receiveAll_withQueue (now : Time) (bs q : List Byte) (s : State) :
    receiveAll now bs (withQueue q s) = withQueue q (receiveAll now bs s) := by
  induction bs generalizing s with
  | nil => rfl
  | cons b bs ih => rw [receiveAll_cons, withQueue, rxByte_setRxq, ← withQueue, ih, receiveAll_cons]

/-- DRAIN receives the bytes that wait and empties the queue (42_frame_sync.md R160). -/
theorem drain_withQueue (now : Time) (q : List Byte) (s : State) :
    drain now (withQueue q s) = withQueue [] (receiveAll now q s) := by
  rw [drain_eq, ← withQueue, withQueue_withQueue, receiveAll_withQueue]
  rfl

theorem drain_of_rxq {s : State} (now : Time) {q : List Byte} (h : s.rxq = q) :
    drain now s = withQueue [] (receiveAll now q s) := by
  rw [← drain_withQueue, withQueue_self h]

/-- With nothing waiting DRAIN changes nothing (42_frame_sync.md R160). -/
theorem drain_of_rxq_nil {s : State} (now : Time) (h : s.rxq = []) : drain now s = s := by
  rw [drain_of_rxq now h, receiveAll_nil, withQueue_self h]

/-- DRAIN may be cut after any of the waiting bytes. -/
theorem drain_of_rxq_append {s : State} (now : Time) {bs cs : List Byte} (h : s.rxq = bs ++ cs) :
    drain now s = drain now (withQueue cs (receiveAll now bs s)) := by
  rw [drain_of_rxq now h, receiveAll_append, drain_withQueue]

end Sys2Proof.Machine
end

section
/-! The search for a header (42_frame_sync.md R164 to R167): what the bytes before a header do, and that fewer bytes than
the header still lacks cannot complete it. -/

namespace Sys2Proof.Machine

open Sys2Proof.Safety

/-- The start of a search: no header byte matched yet (42_frame_sync.md R171, R176). -/
def SearchStart (s : State) : Prop := s.syncState = .seekingHeader ∧ s.hdrIdx = 0

/-- The state with `n` further header mismatches counted, where the counters exist (10_state.md R38). -/
def countMismatches (n : Nat) (s : State) : State :=
  { s with hdrMismatchCnt := if s.cfg.diag then s.hdrMismatchCnt + n else s.hdrMismatchCnt }

theorem countMismatches_zero (s : State) : countMismatches 0 s = s := by
  rw [countMismatches, Nat.add_zero, ite_self]

theorem countMismatches_add (m n : Nat) (s : State) :
    countMismatches m (countMismatches n s) = countMismatches (n + m) s := by
  unfold countMismatches
  cases s.cfg.diag <;> simp [Nat.add_assoc]

theorem searchStart_countMismatches {s : State} (h : SearchStart s) (n : Nat) : SearchStart (countMismatches n s) := h

/-- No byte but STX starts a match (42_frame_sync.md R167 (a)). -/
theorem rxByte_of_noise {b : Byte} {s : State} (now : Time) (h : SearchStart s) (hb : b ≠ 0x02) :
    rxByte b now s = countMismatches 1 s := by
  obtain ⟨hs, hi⟩ := h
  have mismatch : b ≠ headerByte s.cfg s.hdrIdx.val := by rwa [hi]
  rw [rxByte_seeking b now s hs, rxbSeek_of_mismatch mismatch, ← hi]
  rfl

theorem receiveAll_of_noise {noise : List Byte} {s : State} (now : Time) (h : SearchStart s)
    (hnoise : ∀ b ∈ noise, b ≠ 0x02) : receiveAll now noise s = countMismatches noise.length s := by
  induction noise generalizing s with
  | nil => exact (countMismatches_zero s).symm
  | cons b noise ih =>
    obtain ⟨hb, hnoise⟩ := List.forall_mem_cons.mp hnoise
    rw [receiveAll_cons, rxByte_of_noise now h hb, ih (searchStart_countMismatches h 1) hnoise, countMismatches_add,
      List.length_cons, Nat.add_comm]

/-- A second STX is the mismatch of the byte after the first, and is not tested again (42_frame_sync.md R166). -/
theorem receiveAll_two_stx {s : State} (now : Time) (h : SearchStart s) :
    receiveAll now [0x02, 0x02] s = countMismatches 1 s := by
  obtain ⟨hs, hi⟩ := h
  have first : rxByte 0x02 now s = { s with hdrIdx := 1 } := by
    rw [rxByte_seeking _ now s hs, rxbSeek_of_match (by rw [hi]; rfl) (by rw [hi]; decide), hi]
    rfl
  have second : rxByte 0x02 now { s with hdrIdx := 1 } = countMismatches 1 { s with hdrIdx := 0 } := by
    rw [rxByte_seeking _ now { s with hdrIdx := 1 } hs, rxbSeek_of_mismatch (by decide : (0x02 : Byte) ≠ 0x00)]
    rfl
  rw [receiveAll_cons, first, receiveAll_cons, second, receiveAll_nil, ← hi]

/-- Bytes too few to complete the header leave the CORE searching (42_frame_sync.md R164, R166). -/
theorem receiveAll_of_short {bs : List Byte} {s : State} (now : Time) (hs : s.syncState = .seekingHeader)
    (short : s.hdrIdx.val + bs.length < 4) :
    ∃ i n, receiveAll now bs s = { s with hdrIdx := i, hdrMismatchCnt := n } := by
  induction bs generalizing s with
  | nil => exact ⟨s.hdrIdx, s.hdrMismatchCnt, rfl⟩
  | cons b bs ih =>
    rw [List.length_cons] at short
    rw [receiveAll_cons, rxByte_seeking b now s hs]
    rcases rxbSeek_cases b s with ⟨-, _, e⟩ | ⟨-, last, -⟩ | ⟨-, e⟩
    · have further : s.hdrIdx.val + 1 + bs.length < 4 := by omega
      rw [e]
      exact ih hs further
    · have three : s.hdrIdx.val = 3 := congrArg Fin.val last
      omega
    · have again : 0 + bs.length < 4 := by omega
      rw [e]
      exact ih hs again

/-! The way back to the start of a search (42_frame_sync.md R176). -/

/-- Every byte goes on with the frame it belongs to, or ends it. -/
theorem rxByte_progress (b : Byte) (now : Time) (s : State) :
    SearchStart (rxByte b now s) ∨ bytesTaken (rxByte b now s) = bytesTaken s + 1 := by
  cases h : s.syncState with
  | seekingHeader =>
    rw [rxByte_seeking b now s h, bytesTaken_seeking h]
    rcases rxbSeek_cases b s with ⟨-, _, e⟩ | ⟨-, last, e⟩ | ⟨-, e⟩ <;> rw [e]
    · exact .inr (bytesTaken_seeking (by exact h))
    · rw [last]
      exact .inr (bytesTaken_accumulating rfl)
    · exact .inl ⟨h, rfl⟩
  | accumulating =>
    rw [rxByte_accumulating b now s h, bytesTaken_accumulating h]
    rcases rxbAcc_cases b now s with ⟨_, e⟩ | ⟨-, e⟩ <;> rw [e]
    · exact .inr (bytesTaken_accumulating (by exact h))
    · obtain ⟨_, -, -, -, seeking, index, -, -⟩ := complete_outputs now { s with buf := s.buf.write 25 b }
      exact .inl ⟨seeking, index⟩

/-- At most 25 bytes are ever taken in, so the bytes that would make more than that pass the start of a search. -/
theorem exists_take_searchStart (now : Time) {bs : List Byte} {s : State} (h : 25 < bytesTaken s + bs.length) :
    ∃ k, k ≤ bs.length ∧ SearchStart (receiveAll now (bs.take k) s) := by
  induction bs generalizing s with
  | nil => exact absurd h (Nat.not_lt.mpr (bytesTaken_le s))
  | cons b bs ih =>
    rw [List.length_cons] at h ⊢
    rcases rxByte_progress b now s with start | taken
    · exact ⟨1, by omega, start⟩
    · obtain ⟨k, hk, start⟩ := ih (s := rxByte b now s) (by omega)
      exact ⟨k + 1, by omega, start⟩

/-- Nothing taken in is the start of a search: a frame being accumulated has its header. -/
theorem searchStart_of_bytesTaken_eq_zero {s : State} (hinv : SyncInv s) (h : bytesTaken s = 0) : SearchStart s := by
  obtain ⟨-, ⟨hs, -⟩ | ⟨ha, -, h4, -⟩⟩ := hinv
  · rw [bytesTaken_seeking hs] at h
    exact ⟨hs, Fin.ext h⟩
  · rw [bytesTaken_accumulating ha] at h
    omega

end Sys2Proof.Machine
end

section
/-! What the synchronizer does not read (42_frame_sync.md R172, R173): the sample of the TICK and what the debouncer has
made of earlier frames; and a TICK with nothing waiting. -/

namespace Sys2Proof.Machine

open Sys2Proof.Safety

/-- The state without what the debouncer writes: S7 to S9 and the event log. -/
def withoutReads (s : State) : State :=
  { s with lastSeenUid := Config.sentinel, lastSeenTs := 0, armed := false, evlog := [] }

theorem deb_withoutReads (u : Uid) (t : Time) (s : State) : withoutReads (deb u t s) = withoutReads s := by
  rcases deb_cases u t s with ⟨-, e⟩ | ⟨-, e⟩ <;> rw [e] <;> rfl

theorem complete_withoutReads (now now' : Time) (s : State) :
    withoutReads (complete now s) = withoutReads (complete now' (withoutReads s)) := by
  have frame : (withoutReads s).buf.frame = s.buf.frame := rfl
  rw [complete_eq, complete_eq, frame]
  split
  · rw [deb_withoutReads, deb_withoutReads]
    rfl
  · rw [raise_checksumMismatch, raise_checksumMismatch]
    rfl

theorem rxbSeek_withoutReads (b : Byte) (s : State) : rxbSeek b (withoutReads s) = withoutReads (rxbSeek b s) := by
  by_cases hb : b = headerByte s.cfg s.hdrIdx.val
  · by_cases hi : s.hdrIdx.val < 3
    · rw [rxbSeek_of_match hb hi, rxbSeek_of_match (s := withoutReads s) hb hi]
      rfl
    · have three : s.hdrIdx.val = 3 := by omega
      have last : s.hdrIdx = 3 := Fin.ext three
      rw [rxbSeek_of_last_match hb last, rxbSeek_of_last_match (s := withoutReads s) hb last]
      rfl
  · rw [rxbSeek_of_mismatch hb, rxbSeek_of_mismatch (s := withoutReads s) hb]
    rfl

theorem rxbAcc_withoutReads (b : Byte) (now now' : Time) (s : State) :
    withoutReads (rxbAcc b now s) = withoutReads (rxbAcc b now' (withoutReads s)) := by
  rcases rxbAcc_cases b now s with ⟨h, e⟩ | ⟨h, e⟩
  · rw [e, rxbAcc_body b now' (withoutReads s) h]
    rfl
  · rw [e, rxbAcc_last b now' (withoutReads s) h, complete_withoutReads now now']
    rfl

theorem rxByte_withoutReads (b : Byte) (now now' : Time) (s : State) :
    withoutReads (rxByte b now s) = withoutReads (rxByte b now' (withoutReads s)) := by
  cases h : s.syncState with
  | seekingHeader =>
    rw [rxByte_seeking b now s h, rxByte_seeking b now' (withoutReads s) h, rxbSeek_withoutReads]
    rfl
  | accumulating =>
    rw [rxByte_accumulating b now s h, rxByte_accumulating b now' (withoutReads s) h, rxbAcc_withoutReads b now now']

/-- Up to the debouncer, received bytes do the same whatever the sample and whatever the debouncer holds
(42_frame_sync.md R172). -/
theorem receiveAll_withoutReads_congr (now now' : Time) (bs : List Byte) {s s' : State}
    (h : withoutReads s = withoutReads s') :
    withoutReads (receiveAll now bs s) = withoutReads (receiveAll now' bs s') := by
  induction bs generalizing s s' with
  | nil => exact h
  | cons b bs ih =>
    refine ih ?_
    calc withoutReads (rxByte b now s)
      _ = withoutReads (rxByte b now' (withoutReads s')) := by rw [rxByte_withoutReads b now now', h]
      _ = withoutReads (rxByte b now' s') := (rxByte_withoutReads b now' now' s').symm

/-- A TICK with nothing waiting writes nothing that the synchronizer or the debouncer reads or writes
(42_frame_sync.md R173, 60_exceptions.md R243). -/
theorem tickBody_of_rxq_nil {s : State} (now : Time) (hi : s.inTick = false) (hq : s.rxq = []) :
    tickBody now s = withOutside (tickBody now s) s ∧ (tickBody now s).rxq = [] := by
  by_cases processed : NextTickProcessed s
  · have idle : (sched now { countTick s with clock := now }).rxq = [] := (sched_rxq now _).trans hq
    rw [tickBody_eq_drain_sched now hi processed, drain_of_rxq_nil now idle]
    exact ⟨sched_withOutside now { countTick s with clock := now }, idle⟩
  · rw [tickBody_skipped now hi processed]
    exact ⟨rfl, hq⟩

theorem ticks_of_rxq_nil {s : State} (samples : List Time) (hi : s.inTick = false) (hq : s.rxq = []) :
    ticks samples s = withOutside (ticks samples s) s ∧ (ticks samples s).rxq = [] := by
  induction samples generalizing s with
  | nil => exact ⟨rfl, hq⟩
  | cons now samples ih =>
    obtain ⟨-, inTick, -, -, -⟩ := tickBody_frame now s
    obtain ⟨one, empty⟩ := tickBody_of_rxq_nil now hi hq
    obtain ⟨rest, drained⟩ := ih inTick empty
    refine ⟨?_, drained⟩
    rw [ticks_cons]
    calc ticks samples (tickBody now s)
      _ = withOutside (ticks samples (tickBody now s)) (tickBody now s) := rest
      _ = withOutside (ticks samples (tickBody now s)) (withOutside (tickBody now s) s) := by rw [← one]
      _ = withOutside (ticks samples (tickBody now s)) s := rfl

end Sys2Proof.Machine
end

section
/-! The obligations of 42_frame_sync.md. -/

namespace Sys2Proof.Proofs.SyncFamily

open Sys2Proof.Machine Sys2Proof.Safety

/-- Settles O21: DRAIN cut after its first byte. -/
theorem drainIsItsLoop : Obligations.DrainIsItsLoop := by
  unfold Obligations.DrainIsItsLoop
  refine ⟨fun s now hq => ?_, fun s now b q hq => ?_⟩
  · rw [exec_drain, drain_of_rxq_nil now hq]
  · have first : rxByte b now (withQueue q s) = withQueue q (receiveAll now [b] s) := receiveAll_withQueue now [b] q s
    refine ⟨rxByte b now (withQueue q s), drain now s, exec_selected b now (withQueue q s), ?_, ?_, exec_drain now s,
      drain_rxq now s⟩
    · rw [first]
      rfl
    · rw [exec_drain, first, ← drain_of_rxq_append (bs := [b]) now hq]

/-- Settles O23, outcome by outcome. -/
theorem headerDetectorStep : Obligations.HeaderDetectorStep := by
  unfold Obligations.HeaderDetectorStep
  refine fun s b => ⟨fun hb hi => ?_, fun hb hi hw => ?_, fun hb => ?_⟩
  · rw [exec_rxbSeek, rxbSeek_of_match hb hi]
  · refine ⟨parkedAt (seedHeader s.cfg s.buf) 4 s, ?_, rfl, seedHeader_read_eq s.cfg hw⟩
    rw [exec_rxbSeek, rxbSeek_of_last_match hb hi]
  · rw [exec_rxbSeek, rxbSeek_of_mismatch hb]

/-- Settles O24: the byte is written in the canonical form, and the 26th is followed by COMPLETE. -/
theorem accumulatorStep : Obligations.AccumulatorStep := by
  unfold Obligations.AccumulatorStep
  refine fun s b now hw => ⟨fun hl => ?_, fun hl => ?_⟩
  · have next : (⟨s.bufLen.val + 1, Nat.succ_lt_succ hl⟩ : Fin 26) = s.bufLen + 1 :=
      Fin.ext (Fin.val_add_one_of_lt' (Nat.succ_lt_succ hl)).symm
    refine ⟨{ s with buf := s.buf.write s.bufLen.val b, bufLen := s.bufLen + 1 }, ?_, rfl,
      fun k => Memory.read_write s.buf s.bufLen.val k b hw⟩
    rw [exec_rxbAcc, rxbAcc_body b now s (Nat.succ_lt_succ hl), next]
  · refine ⟨s.buf.write 25 b, complete now { s with buf := s.buf.write 25 b },
      fun k => Memory.read_write s.buf 25 k b hw, Memory.wf_write s.buf 25 b (by decide) hw, exec_complete now _, ?_⟩
    rw [exec_rxbAcc, rxbAcc_last b now s hl]

/-- Settles O25: the checksum decides between the drop and the debouncer, whose test does not read what COMPLETE reset. -/
theorem completeJudgesTheFrame : Obligations.CompleteJudgesTheFrame := by
  unfold Obligations.CompleteJudgesTheFrame
  refine fun s now => ⟨fun fails => ?_, fun holds opens => ?_, fun holds closes => ?_⟩
  · rw [exec_complete, complete_of_rejected now fails]
    rfl
  · rw [exec_complete, complete_of_accepted now holds, deb_of_opens _ _ (resetSync s) opens]
    rfl
  · rw [exec_complete, complete_of_accepted now holds, deb_of_not_opens _ _ (resetSync s) closes]
    rfl

/-- Settles O26: the header seeds cells 0 to 3, and the body is stored behind it. -/
theorem headerThenBodyIsParked : Obligations.HeaderThenBodyIsParked := by
  unfold Obligations.HeaderThenBodyIsParked
  intro s now body hw hs hi short hq
  have v4 : ((4 : Fin 26) : Nat) = 4 := rfl
  obtain ⟨m, parked, -, below, inside, above⟩ :=
    receiveAll_body now body s (seedHeader s.cfg s.buf) 4 (seedHeader_wf s.cfg s.buf hw) (by omega)
  have drained : drain now s = withQueue [] (parkedAt m ⟨4 + body.length, by omega⟩ s) := by
    rw [drain_of_rxq now hq, ← header_eq, receiveAll_append, receiveAll_header now s hs hi, parked]
    rfl
  refine ⟨drain now s, exec_drain now s, ?_⟩
  rw [drained]
  refine ⟨?_, rfl, fun k hk => ?_, inside, fun k hk => ?_⟩
  · simp only [withQueue, parkedAt, hi]
  · exact (below k hk).trans ((seedHeader_read_eq s.cfg hw k).trans (if_pos hk))
  · exact (above k hk).trans ((seedHeader_read_eq s.cfg hw k).trans (if_neg (by omega)))

/-- Settles O28: DRAIN cut behind the noise. -/
theorem noiseBeforeHeaderIsDiscarded : Obligations.NoiseBeforeHeaderIsDiscarded := by
  unfold Obligations.NoiseBeforeHeaderIsDiscarded
  intro s now noise rest hs hi hnoise hq
  refine ⟨drain now s, exec_drain now s, ?_⟩
  rw [exec_drain, drain_of_rxq_append now hq, receiveAll_of_noise now ⟨hs, hi⟩ hnoise]
  rfl

/-- Settles O29: the second STX puts the search back to its start, and the three bytes left of the header are too few to
complete it; where none of them is an STX they are noise. -/
theorem strayStxLosesHeader : Obligations.StrayStxLosesHeader := by
  unfold Obligations.StrayStxLosesHeader
  intro s now hs hi hq
  have start : SearchStart (countMismatches 1 s) := searchStart_countMismatches ⟨hs, hi⟩ 1
  have drained : drain now s =
      withQueue [] (receiveAll now [0x00, s.cfg.hdr2, s.cfg.hdr3] (countMismatches 1 s)) := by
    rw [drain_of_rxq now hq, ← receiveAll_two_stx now ⟨hs, hi⟩]
    rfl
  refine ⟨drain now s, exec_drain now s, ?_, fun h2 h3 => ?_⟩
  · have short : (countMismatches 1 s).hdrIdx.val + [0x00, s.cfg.hdr2, s.cfg.hdr3].length < 4 := by
      rw [start.2]
      exact Nat.lt_succ_self 3
    obtain ⟨i, n, e⟩ := receiveAll_of_short now start.1 short
    rw [drained, e]
    rfl
  · have noise : ∀ b ∈ [0x00, s.cfg.hdr2, s.cfg.hdr3], b ≠ 0x02 :=
      List.forall_mem_cons.mpr ⟨by decide, List.forall_mem_cons.mpr ⟨h2, List.forall_mem_singleton.mpr h3⟩⟩
    rw [drained, receiveAll_of_noise now start noise, countMismatches_add]
    exact ⟨hi, rfl⟩

/-- Settles O30: up to what the debouncer writes, the drains receive the same bytes, one after the other. -/
theorem tickBoundariesDoNotMatter : Obligations.TickBoundariesDoNotMatter := by
  unfold Obligations.TickBoundariesDoNotMatter
  intro s first second n n₁ n₂
  refine ⟨drain n (withQueue (first ++ second) s), drain n₁ (withQueue first s),
    drain n₂ (withQueue second (drain n₁ (withQueue first s))), exec_drain n _, exec_drain n₁ _, exec_drain n₂ _, ?_⟩
  have received : withoutReads (receiveAll n₂ second (receiveAll n₁ first s)) =
      withoutReads (receiveAll n (first ++ second) s) := by
    rw [receiveAll_append]
    exact receiveAll_withoutReads_congr n₂ n second (receiveAll_withoutReads_congr n₁ n first rfl)
  have agree : withoutReads (drain n₂ (withQueue second (drain n₁ (withQueue first s)))) =
      withoutReads (drain n (withQueue (first ++ second) s)) := by
    rw [drain_withQueue n₁, withQueue_withQueue, drain_withQueue, drain_withQueue]
    exact congrArg (withQueue []) received
  exact ⟨(congrArg State.syncState agree :), (congrArg State.hdrIdx agree :), (congrArg State.buf agree :),
    (congrArg State.bufLen agree :), (congrArg State.hdrMismatchCnt agree :), (congrArg State.bccFailCnt agree :)⟩

/-- Settles O31: none of the TICKs is refused, and none finds a byte. -/
theorem stalledFrameNeverTimesOut : Obligations.StalledFrameNeverTimesOut := by
  unfold Obligations.StalledFrameNeverTimesOut
  intro s samples hl hi hq
  obtain ⟨inside, empty⟩ := ticks_of_rxq_nil samples hi hq
  refine ⟨ticks samples s, execAll_ticks samples hl hi, empty, ?_⟩
  rw [inside]
  exact ⟨rfl, rfl, rfl, rfl, rfl, rfl, rfl, rfl, rfl, rfl⟩

/-- Settles O32: at the start of a search no byte is needed; anywhere else at least one byte has been taken in, and 25 more
are too many for one frame. -/
theorem synchronizerRecovers : Obligations.SynchronizerRecovers := by
  unfold Obligations.SynchronizerRecovers
  intro s now bytes hinv hlen
  obtain ⟨k, hk, seeking, index⟩ : ∃ k, k ≤ bytes.length ∧ SearchStart (receiveAll now (bytes.take k) s) := by
    by_cases h : bytesTaken s = 0
    · exact ⟨0, Nat.zero_le _, searchStart_of_bytesTaken_eq_zero hinv h⟩
    · exact exists_take_searchStart now (by omega)
  refine ⟨k, drain now (withQueue (bytes.take k) s), hlen ▸ hk, exec_drain now _, ?_⟩
  rw [drain_withQueue]
  exact ⟨seeking, index⟩

end Sys2Proof.Proofs.SyncFamily
end

section
/-! The block check character as one XOR over a run of bytes (43_checksum.md R190, R194, R195): the bytes 1 to 23 in any
order, and the XOR of bytes 1 to 24, which is 0 when the checksum is right. -/

namespace Sys2Proof.Machine

open Sys2Proof.Safety

/-- The XOR of all bytes of a list. -/
def xorBytes (bs : List Byte) : Byte := bs.foldl (· ^^^ ·) 0#8

@[simp] theorem xorBytes_nil : xorBytes [] = 0#8 := rfl

@[simp] theorem xorBytes_cons (b : Byte) (bs : List Byte) : xorBytes (b :: bs) = b ^^^ xorBytes bs := by
  unfold xorBytes
  rw [List.foldl_cons, BitVec.xor_comm]
  exact List.foldl_assoc

theorem xorBytes_append (as bs : List Byte) : xorBytes (as ++ bs) = xorBytes as ^^^ xorBytes bs := by
  induction as with
  | nil => simp
  | cons a as ih => rw [List.cons_append, xorBytes_cons, xorBytes_cons, ih, BitVec.xor_assoc]

/-- The order does not matter (43_checksum.md R194). -/
theorem xorBytes_perm {as bs : List Byte} (h : as.Perm bs) : xorBytes as = xorBytes bs :=
  h.foldl_op_eq

/-- A difference in one byte is the same difference in the XOR (43_checksum.md R195). -/
theorem xorBytes_set_xor (d : Byte) (bs : List Byte) (k : Nat) (h : k < bs.length) :
    xorBytes (bs.set k (bs[k] ^^^ d)) = xorBytes bs ^^^ d := by
  induction bs generalizing k with
  | nil => exact absurd h (Nat.not_lt_zero k)
  | cons b bs ih =>
    cases k with
    | zero =>
      rw [List.set_cons_zero, xorBytes_cons, xorBytes_cons, List.getElem_cons_zero]
      ac_rfl
    | succ k =>
      rw [List.set_cons_succ, xorBytes_cons, xorBytes_cons, List.getElem_cons_succ,
        ih k (Nat.lt_of_succ_lt_succ h), BitVec.xor_assoc]

/-- The computed checksum is the XOR of the run of bytes 1 to 23 (43_checksum.md R190). -/
theorem xorOfBody_eq_xorBytes (f : Frame) : xorOfBody f = xorBytes ((f.toList.drop 1).take 23) := by
  unfold xorOfBody xorBytes
  congr 1
  apply List.ext_getElem
  · simp
  · intro k hk _
    rw [List.length_map, List.length_range] at hk
    simp [show k + 1 < 26 by omega]

/-- The XOR of bytes 1 to 24: the computed checksum against the one the frame carries. -/
def checkXor (f : Frame) : Byte := xorBytes ((f.toList.drop 1).take 24)

theorem checkXor_eq (f : Frame) : checkXor f = xorOfBody f ^^^ f[24] := by
  have run : (f.toList.drop 1).take 24 = (f.toList.drop 1).take 23 ++ [f[24]] := by
    rw [List.take_add_one]
    simp
  rw [checkXor, run, xorBytes_append, xorOfBody_eq_xorBytes, xorBytes_cons, xorBytes_nil, BitVec.xor_zero]

theorem checksumHolds_iff_checkXor (f : Frame) : ChecksumHolds f ↔ checkXor f = 0#8 := by
  rw [checkXor_eq, ChecksumHolds, eq_comm]
  exact BitVec.xor_eq_zero_iff.symm

/-- A difference in one of the bytes 1 to 24 shows. -/
theorem checkXor_set_xor (f : Frame) (d : Byte) {k : Nat} (h : k < 26) (lower : 1 ≤ k) (upper : k ≤ 24) :
    checkXor (f.set k (f[k] ^^^ d)) = checkXor f ^^^ d := by
  obtain ⟨k, rfl⟩ := Nat.exists_eq_add_of_le' lower
  have inside : k < ((f.toList.drop 1).take 24).length := by
    simp
    omega
  have byte : ((f.toList.drop 1).take 24)[k] = f[k + 1] := by simp
  unfold checkXor
  rw [← xorBytes_set_xor d _ k inside, byte, Vector.toList_set, List.drop_set, if_neg (by omega), List.take_set]
  rfl

/-- Bytes 0 and 25 are not read (43_checksum.md R191). -/
theorem checkXor_set_outside (f : Frame) (b : Byte) {k : Nat} (h : k < 26) (outside : k = 0 ∨ k = 25) :
    checkXor (f.set k b) = checkXor f := by
  unfold checkXor
  rcases outside with rfl | rfl
  · rw [Vector.toList_set, List.drop_set_of_lt Nat.zero_lt_one]
  · rw [Vector.toList_set, List.drop_set, if_neg (by decide), List.take_set, List.set_eq_of_length_le (by simp)]

theorem bccAccepts_eq_decide (f : Frame) : bccAccepts f = decide (xorOfBody f = f[24]) := by
  rw [bccAccepts, bcc_frame]
  rfl

/-- BCC.CHK answers true exactly when the bytes 1 to 24 cancel out (43_checksum.md R192). -/
theorem exec_bccChk_checkXor (f : Frame) (s : State) :
    exec (.bccChk f) s = .next { s with result := .bccChk (decide (checkXor f = 0#8)) } := by
  have answer : bccAccepts f = decide (checkXor f = 0#8) :=
    Bool.eq_iff_iff.mpr (by rw [bccAccepts_iff, checksumHolds_iff_checkXor, decide_eq_true_iff])
  rw [exec_bccChk, answer]

/-- A bit of a byte as a mask is not 0. -/
theorem one_shiftLeft_ne_zero {j : Nat} (h : j < 8) : (1#8 <<< j : Byte) ≠ 0#8 := by
  interval_cases j <;> decide

end Sys2Proof.Machine
end

section
/-! The obligations of 43_checksum.md. -/

namespace Sys2Proof.Proofs.ChecksumFamily

open Sys2Proof.Machine Sys2Proof.Safety

/-- Settles O33: the seeded fold of R190 is the XOR of bytes 1 to 23. -/
theorem checksumIsXorOfBody : Obligations.ChecksumIsXorOfBody := by
  unfold Obligations.ChecksumIsXorOfBody
  intro s f
  rw [exec_bccChk, bccAccepts_eq_decide]

/-- Settles O34: BCC.CHK reads byte 24 and the XOR of the run, and the XOR does not see the order. -/
theorem checksumIgnoresOrder : Obligations.ChecksumIgnoresOrder := by
  unfold Obligations.ChecksumIgnoresOrder
  intro s f g byte24 perm
  have computed : xorOfBody f = xorOfBody g := by
    rw [xorOfBody_eq_xorBytes, xorOfBody_eq_xorBytes, xorBytes_perm perm]
  rw [exec_bccChk, exec_bccChk, bccAccepts_eq_decide, bccAccepts_eq_decide, computed, byte24]

/-- Settles O35: the XOR of bytes 1 to 24 takes up every flipped bit of them, so one flip leaves its bit and two of
the same position cancel out. -/
theorem singleBitFlipIsCaught : Obligations.SingleBitFlipIsCaught := by
  unfold Obligations.SingleBitFlipIsCaught
  intro s f holds
  have zero : checkXor f = 0#8 := (checksumHolds_iff_checkXor f).mp holds
  refine ⟨fun k j h lower upper hj => ?_, fun k k' j h h' lower lt upper _ => ?_, fun b => ⟨?_, ?_⟩⟩
  · have flipped : checkXor (f.set k (f[k] ^^^ (1#8 <<< j))) = 1#8 <<< j := by
      rw [checkXor_set_xor f _ h lower upper, zero, BitVec.zero_xor]
    rw [exec_bccChk_checkXor, flipped, decide_eq_false (one_shiftLeft_ne_zero hj)]
  · have other : f[k'] = (f.set k (f[k] ^^^ (1#8 <<< j)))[k'] := (Vector.getElem_set_ne h h' (Nat.ne_of_lt lt)).symm
    rw [exec_bccChk_checkXor, other, checkXor_set_xor _ _ h' (by omega) upper,
      checkXor_set_xor f _ h lower (by omega), BitVec.xor_assoc, BitVec.xor_self, BitVec.xor_zero, decide_eq_true zero]
  · rw [exec_bccChk_checkXor, checkXor_set_outside f b _ (.inl rfl), decide_eq_true zero]
  · rw [exec_bccChk_checkXor, checkXor_set_outside f b _ (.inr rfl), decide_eq_true zero]

end Sys2Proof.Proofs.ChecksumFamily
end

section
/-! The obligation of 44_uid_extract.md. -/

namespace Sys2Proof.Proofs.UidFamily

open Sys2Proof.Machine Sys2Proof.Safety

/-- Settles O36: UIDX writes only `result`, and the UID field starts at UID_OFF = 4 (44_uid_extract.md R205). -/
theorem uidIsBytesFourToSeven : Obligations.UidIsBytesFourToSeven := by
  unfold Obligations.UidIsBytesFourToSeven
  intro s f
  rw [exec_uidx, uidField_eq, uidOf]

end Sys2Proof.Proofs.UidFamily
end

section
/-! A read of the debouncer on the wire (45_debounce.md): from a ready state a RESP and the TICK after it either store a
candidate or fire, by the test of R217; runs of several reads, and the first read after RESET, are made of that. -/

namespace Sys2Proof.Machine

open Sys2Proof.Safety

/-! One read. -/

/-- The read `(u, now)` led from `s` to `t` by DEB.STORE (45_debounce.md R218, R231). -/
structure ReadStored (u : Uid) (now : Time) (s t : State) : Prop where
  ready : Ready t
  cfg : t.cfg = s.cfg
  lastSeenUid : t.lastSeenUid = u
  lastSeenTs : t.lastSeenTs = now
  armed : t.armed = true
  evlog : t.evlog = s.evlog

/-- The read `(u, now)` led from `s` to `t` by DEB.FIRE (45_debounce.md R219, R231). -/
structure ReadFired (u : Uid) (now : Time) (s t : State) : Prop where
  ready : Ready t
  cfg : t.cfg = s.cfg
  lastSeenUid : t.lastSeenUid = ⟨0, 0, 0, 0⟩
  lastSeenTs : t.lastSeenTs = s.lastSeenTs
  armed : t.armed = false
  evlog : t.evlog = s.evlog ++ [⟨u, now⟩]

theorem not_opensCandidate_iff (u : Uid) (now : Time) (s : State) :
    ¬ OpensCandidate u now s ↔
      u = s.lastSeenUid ∧ elapsedMs now s.lastSeenTs ≤ s.cfg.debounceWindowMs.toNat := by
  rw [OpensCandidate, not_or, not_not, Nat.not_lt]

theorem execAll_read_of_opens {s : State} {u : Uid} {now : Time} (h : Ready s) (p : Payload) (e : Byte)
    (opens : OpensCandidate u now s) :
    ∃ t, execAll [.resp u p e, .tick now] s = .next t ∧ ReadStored u now s t := by
  obtain ⟨t, run, ready, cfg, -, -, stored, -⟩ :=
    Proofs.EncodingFamily.responseIsOneAcceptedRead s u p e now h
  obtain ⟨uid, ts, armed, evlog⟩ := stored opens
  exact ⟨t, run, ready, cfg, uid, ts, armed, evlog⟩

theorem execAll_read_of_not_opens {s : State} {u : Uid} {now : Time} (h : Ready s) (p : Payload) (e : Byte)
    (closes : ¬ OpensCandidate u now s) :
    ∃ t, execAll [.resp u p e, .tick now] s = .next t ∧ ReadFired u now s t := by
  obtain ⟨t, run, ready, cfg, -, -, -, fired⟩ :=
    Proofs.EncodingFamily.responseIsOneAcceptedRead s u p e now h
  obtain ⟨uid, ts, armed, evlog⟩ := fired closes
  exact ⟨t, run, ready, cfg, uid, ts, armed, evlog⟩

/-! Several reads. -/

/-- A run goes on from the state in which its first read ends. -/
theorem execAll_read_append {s t : State} {u : Uid} {p : Payload} {e : Byte} {now : Time}
    (run : execAll [.resp u p e, .tick now] s = .next t) (is : List Instr) :
    execAll (.resp u p e :: .tick now :: is) s = execAll is t :=
  execAll_append [.resp u p e, .tick now] is s t run

/-- A second read of the stored card within the window fires (45_debounce.md R225). -/
theorem ReadStored.execAll_same_card {s a : State} {u : Uid} {t₁ t₂ : Time} (h : ReadStored u t₁ s a) (p : Payload)
    (e : Byte) (within : elapsedMs t₂ t₁ ≤ s.cfg.debounceWindowMs.toNat) :
    ∃ t, execAll [.resp u p e, .tick t₂] a = .next t ∧ ReadFired u t₂ a t := by
  refine execAll_read_of_not_opens h.ready p e ((not_opensCandidate_iff u t₂ a).mpr ⟨h.lastSeenUid.symm, ?_⟩)
  rw [h.lastSeenTs, h.cfg]
  exact within

/-- Two reads of a card that is not the reference, the second within the window of the first, report it once, at the
second (45_debounce.md R225). -/
theorem execAll_pair_same_card {s : State} {u : Uid} {t₁ t₂ : Time} (h : Ready s) (p : Payload) (e : Byte)
    (fresh : u ≠ s.lastSeenUid) (within : elapsedMs t₂ t₁ ≤ s.cfg.debounceWindowMs.toNat) :
    ∃ t, execAll [.resp u p e, .tick t₁, .resp u p e, .tick t₂] s = .next t ∧ Ready t ∧ t.cfg = s.cfg ∧
      t.lastSeenUid = ⟨0, 0, 0, 0⟩ ∧ t.evlog = s.evlog ++ [⟨u, t₂⟩] := by
  obtain ⟨a, run₁, stored⟩ := execAll_read_of_opens (now := t₁) h p e (.inl fresh)
  obtain ⟨t, run₂, fired⟩ := stored.execAll_same_card p e within
  exact ⟨t, (execAll_read_append run₁ _).trans run₂, fired.ready, fired.cfg.trans stored.cfg, fired.lastSeenUid,
    fired.evlog.trans (by rw [stored.evlog])⟩

/-- Reads of two cards, the first not the reference, replace one candidate by the other (45_debounce.md R229). -/
theorem execAll_pair_other_card {s : State} {u v : Uid} (t₁ t₂ : Time) (h : Ready s) (p : Payload) (e : Byte)
    (fresh : u ≠ s.lastSeenUid) (other : u ≠ v) :
    ∃ t, execAll [.resp u p e, .tick t₁, .resp v p e, .tick t₂] s = .next t ∧ Ready t ∧ t.lastSeenUid = v ∧
      t.evlog = s.evlog := by
  obtain ⟨a, run₁, stored⟩ := execAll_read_of_opens (now := t₁) h p e (.inl fresh)
  have replaces : v ≠ a.lastSeenUid := stored.lastSeenUid ▸ other.symm
  obtain ⟨t, run₂, stored'⟩ := execAll_read_of_opens (now := t₂) stored.ready p e (.inl replaces)
  exact ⟨t, (execAll_read_append run₁ _).trans run₂, stored'.ready, stored'.lastSeenUid,
    stored'.evlog.trans stored.evlog⟩

/-! The first read after RESET (45_debounce.md R227). -/

theorem elapsedMs_zero (now : Time) : elapsedMs now 0 = now.toNat := by
  rw [← elapsed_toNat, elapsed, sub_zero]

/-- An empty queue is empty after RESET, whether bytes are kept or flushed (70_reset_and_hazards.md R272). -/
theorem queueAtReset_of_nil {s : State} (hq : s.rxq = []) : queueAtReset s = [] := by
  rw [queueAtReset, hq]

/-- The state after a RESET with a divider of 1 and a SETUP. -/
def setUpAfterReset (interval : Time) (s : State) : State := { construct 1 interval s with linkUp := true }

theorem execAll_reset_setup {s : State} (hi : s.inTick = false) (interval : Time) (is : List Instr) :
    execAll (.reset 1 interval :: .setup :: is) s = execAll is (setUpAfterReset interval s) := by
  have constructed : exec (.reset 1 interval) s = .next (construct 1 interval s) := by
    rw [exec_reset, if_neg (by rw [hi]; decide), dif_pos Nat.one_pos]
    rfl
  have linked : exec .setup (construct 1 interval s) = .next (setUpAfterReset interval s) := rfl
  rw [execAll_cons _ _ _ _ constructed, execAll_cons _ _ _ _ linked]

theorem ready_setUpAfterReset {s : State} (interval : Time) (hq : s.rxq = []) (room : HasRoom s 26)
    (hw : Memory.wf s.buf = true) : Ready (setUpAfterReset interval s) where
  linkUp := rfl
  inTick := rfl
  rxq := queueAtReset_of_nil hq
  seeking := rfl
  hdrIdx := rfl
  divider := rfl
  room d hd := (Nat.add_le_add_right (queueAtReset_length_le s) 26).trans (room d hd)
  buf := hw

theorem not_opensCandidate_setUpAfterReset_iff (interval : Time) (u : Uid) (now : Time) (s : State) :
    ¬ OpensCandidate u now (setUpAfterReset interval s) ↔
      u = s.cfg.uidReset ∧ now.toNat ≤ s.cfg.debounceWindowMs.toNat := by
  have start : (setUpAfterReset interval s).lastSeenTs = 0 := rfl
  rw [not_opensCandidate_iff, start, elapsedMs_zero]
  rfl

end Sys2Proof.Machine
end

section
/-! The obligations of 45_debounce.md. -/

namespace Sys2Proof.Proofs.DebounceFamily

open Sys2Proof.Machine Sys2Proof.Safety

/-- Settles O40, by induction on the pairs: each pair fires once and leaves the sentinel as reference, again
another UID. -/
theorem everySecondReadFires : Obligations.EverySecondReadFires := by
  unfold Obligations.EverySecondReadFires
  intro s u p e pairs hready nonzero fresh within
  induction pairs generalizing s with
  | nil => exact ⟨s, rfl, (List.append_nil _).symm⟩
  | cons q pairs ih =>
    obtain ⟨within_q, within_pairs⟩ := List.forall_mem_cons.mp within
    obtain ⟨a, run, ready, cfg, uid, evlog⟩ := execAll_pair_same_card hready p e fresh within_q
    obtain ⟨t, run', evlog'⟩ := ih a ready (uid ▸ nonzero) (cfg ▸ within_pairs)
    refine ⟨t, ?_, ?_⟩
    · rw [List.flatMap_cons, execAll_append _ _ _ _ run, run']
    · rw [evlog', evlog, List.append_assoc, List.map_cons, List.singleton_append]

/-- Settles O41: the pair leaves the sentinel as reference, so the third read is a read of another UID. -/
theorem thirdReadDoesNotRefire : Obligations.ThirdReadDoesNotRefire := by
  unfold Obligations.ThirdReadDoesNotRefire
  intro s u p e t₁ t₂ t₃ hready nonzero fresh within
  obtain ⟨a, run, ready, -, uid, evlog⟩ := execAll_pair_same_card hready p e fresh within
  have fresh' : u ≠ a.lastSeenUid := uid ▸ nonzero
  obtain ⟨t, run', stored⟩ := execAll_read_of_opens (now := t₃) ready p e (.inl fresh')
  exact ⟨t, (execAll_append _ [.resp u p e, .tick t₃] s a run).trans run', stored.evlog.trans evlog,
    stored.lastSeenUid, stored.lastSeenTs, stored.armed⟩

/-- Settles O42, by induction on the pairs: each read finds the other card as reference. -/
theorem alternatingCardsNeverFire : Obligations.AlternatingCardsNeverFire := by
  unfold Obligations.AlternatingCardsNeverFire
  intro s u v p e pairs hready other fresh
  induction pairs generalizing s with
  | nil => exact ⟨s, rfl, rfl⟩
  | cons q pairs ih =>
    obtain ⟨a, run, ready, uid, evlog⟩ := execAll_pair_other_card q.1 q.2 hready p e fresh other
    obtain ⟨t, run', evlog'⟩ := ih a ready (uid ▸ other)
    refine ⟨t, ?_, evlog'.trans evlog⟩
    rw [List.flatMap_cons, execAll_append _ _ _ _ run, run']

/-- Settles O43: the all-zero UID equals the sentinel, so the window alone decides. -/
theorem allZeroUidFiresOnOneRead : Obligations.AllZeroUidFiresOnOneRead := by
  unfold Obligations.AllZeroUidFiresOnOneRead
  intro s p e t₁ t₂ hready sentinel
  refine ⟨fun within => ?_, fun expired => ?_⟩
  · have closes : ¬ OpensCandidate ⟨0, 0, 0, 0⟩ t₁ s := (not_opensCandidate_iff _ t₁ s).mpr ⟨sentinel.symm, within⟩
    obtain ⟨t, run, fired⟩ := execAll_read_of_not_opens hready p e closes
    exact ⟨t, run, fired.evlog, fired.lastSeenTs⟩
  · obtain ⟨t, run, stored⟩ := execAll_read_of_opens (u := ⟨0, 0, 0, 0⟩) hready p e (.inr expired)
    refine ⟨t, run, stored.evlog, stored.lastSeenTs, stored.armed, fun within => ?_⟩
    obtain ⟨t', run', fired⟩ := stored.execAll_same_card p e within
    exact ⟨t', run', by rw [fired.evlog, stored.evlog]⟩

/-- Settles O44: RESET and SETUP end in a ready state with the reference `UID_RESET` at sample 0. -/
theorem firstReadAfterReset : Obligations.FirstReadAfterReset := by
  unfold Obligations.FirstReadAfterReset
  intro s interval u p e now idle empty room hw
  have hready : Ready (setUpAfterReset interval s) := ready_setUpAfterReset interval empty room hw
  rw [execAll_reset_setup idle, ← not_opensCandidate_setUpAfterReset_iff interval u now s, not_not]
  by_cases opens : OpensCandidate u now (setUpAfterReset interval s)
  · obtain ⟨t, run, stored⟩ := execAll_read_of_opens hready p e opens
    exact ⟨t, run, fun closes => absurd opens closes,
      fun _ => ⟨stored.evlog, stored.lastSeenUid, stored.lastSeenTs, stored.armed⟩⟩
  · obtain ⟨t, run, fired⟩ := execAll_read_of_not_opens hready p e opens
    exact ⟨t, run, fun _ => fired.evlog, fun opens' => absurd opens' opens⟩

/-- Settles O37: DEB.STORE by itself is the store of DEB (45_debounce.md R218). -/
theorem debStoreMakesCandidate : Obligations.DebStoreMakesCandidate := by
  unfold Obligations.DebStoreMakesCandidate
  intro s u t
  rw [exec_debStore]
  rfl

/-- Settles O38: DEB.FIRE by itself is the firing of DEB at the sample in `clock` (45_debounce.md R219, R222). -/
theorem debFireEmitsPresence : Obligations.DebFireEmitsPresence := by
  unfold Obligations.DebFireEmitsPresence
  intro s u
  rw [exec_debFire]
  rfl

end Sys2Proof.Proofs.DebounceFamily
end

section
/-! The refusals and the outputs (60_exceptions.md R245, R247): what each of the three host events answers, and what an
operation puts into the two logs and `link_up`. -/

namespace Sys2Proof.Machine

/-! The three host events (60_exceptions.md R245). -/

/-- RESET tests `in_tick` first, so inside a TICK its divider is not tested (log entry 26). -/
theorem exec_reset_of_inTick {s : State} (h : s.inTick = true) (d : Nat) (interval : Time) :
    exec (.reset d interval) s = .refused .reentrant := by
  rw [exec_reset, if_pos h]

/-- RESET has three answers (70_reset_and_hazards.md R270). -/
theorem exec_reset_cases (d : Nat) (interval : Time) (s : State) :
    (s.inTick = true ∧ exec (.reset d interval) s = .refused .reentrant) ∨
      (d = 0 ∧ exec (.reset d interval) s = .refused .badConfig) ∨
        ∃ hd : 0 < d, exec (.reset d interval) s = .next (construct ⟨d, hd⟩ interval s) := by
  by_cases running : s.inTick = true
  · exact .inl ⟨running, exec_reset_of_inTick running d interval⟩
  · rw [exec_reset, if_neg running]
    by_cases hd : 0 < d
    · exact .inr (.inr ⟨hd, dif_pos hd⟩)
    · exact .inr (.inl ⟨Nat.eq_zero_of_not_pos hd, dif_neg hd⟩)

/-- SETUP has two answers (40_tick_gate.md R120, R123). -/
theorem exec_setup_cases (s : State) :
    (s.inTick = true ∧ exec .setup s = .refused .reentrant) ∨ exec .setup s = .next { s with linkUp := true } := by
  rw [exec_setup]
  by_cases running : s.inTick = true
  · exact .inl ⟨running, if_pos running⟩
  · exact .inr (if_neg running)

/-- TICK has three answers (40_tick_gate.md R121 to R123). -/
theorem exec_tick_cases (now : Time) (s : State) :
    (s.linkUp = false ∧ exec (.tick now) s = .refused .notSetUp) ∨
      (s.inTick = true ∧ exec (.tick now) s = .refused .reentrant) ∨ exec (.tick now) s = .next (tickBody now s) := by
  rw [exec_tick_eq]
  cases s.linkUp with
  | false => exact .inl ⟨rfl, rfl⟩
  | true =>
    by_cases running : s.inTick = true
    · exact .inr (.inl ⟨running, if_pos running⟩)
    · exact .inr (.inr (if_neg running))

/-! The outputs and `link_up` (60_exceptions.md R247). -/

/-- An operation that writes only S3 to S11 and `evlog` leaves the log of requests and `link_up` (40_tick_gate.md R129). -/
theorem outputs_of_withOutside {a t : State} (h : withOutside a t = t) : t.txlog = a.txlog ∧ t.linkUp = a.linkUp := by
  rw [← h]
  exact ⟨rfl, rfl⟩

/-- Arriving bytes touch no output (20_memory.md R63). -/
theorem rxPushAll_outputs (bs : List Byte) (s : State) :
    (rxPushAll bs s).evlog = s.evlog ∧ (rxPushAll bs s).txlog = s.txlog ∧ (rxPushAll bs s).linkUp = s.linkUp := by
  rw [rxPushAll_frame]
  exact ⟨rfl, rfl, rfl⟩

/-- RXB.SEEK emits nothing, whatever the sequencing state. -/
@[simp] theorem rxbSeek_evlog (b : Byte) (s : State) : (rxbSeek b s).evlog = s.evlog := by
  rcases rxbSeek_cases b s with ⟨-, _, e⟩ | ⟨-, -, e⟩ | ⟨-, e⟩ <;> rw [e]

/-- RXB.ACC emits what its COMPLETE emits, whatever the sequencing state. -/
theorem rxbAcc_appends_evlog (b : Byte) (now : Time) (s : State) : ∃ es, (rxbAcc b now s).evlog = s.evlog ++ es := by
  rcases rxbAcc_cases b now s with ⟨_, e⟩ | ⟨-, e⟩ <;> rw [e]
  · exact ⟨[], (List.append_nil _).symm⟩
  · obtain ⟨es, evlog, -⟩ := complete_outputs now { s with buf := s.buf.write 25 b }
    exact ⟨es, evlog⟩

end Sys2Proof.Machine
end

section
/-! The obligations of 60_exceptions.md. -/

namespace Sys2Proof.Proofs.ExceptionFamily

open Sys2Proof.Machine Sys2Proof.Safety

/-- Settles O6: the three host events have the answers of their case lemmas; no other operation has a test in front of
its effect. -/
theorem onlyHostEventsAreRefused : Obligations.OnlyHostEventsAreRefused := by
  unfold Obligations.OnlyHostEventsAreRefused
  intro i s
  cases i with
  | reset d interval =>
    rcases exec_reset_cases d interval s with ⟨running, e⟩ | ⟨rfl, e⟩ | ⟨hd, e⟩
    · exact .inr (.inr (.inl ⟨e, running, .inr (.inr ⟨d, interval, rfl⟩)⟩))
    · exact .inr (.inr (.inr ⟨e, interval, rfl⟩))
    · exact .inl ⟨_, e⟩
  | setup =>
    rcases exec_setup_cases s with ⟨running, e⟩ | e
    · exact .inr (.inr (.inl ⟨e, running, .inr (.inl rfl)⟩))
    · exact .inl ⟨_, e⟩
  | tick now =>
    rcases exec_tick_cases now s with ⟨down, e⟩ | ⟨running, e⟩ | e
    · exact .inr (.inl ⟨e, down, now, rfl⟩)
    · exact .inr (.inr (.inl ⟨e, running, .inl ⟨now, rfl⟩⟩))
    · exact .inl ⟨_, e⟩
  | rxArrive | gate | sched | drain | rxbSeek | rxbAcc | complete | bccChk | uidx | debStore | debFire | pollRead
  | resp => exact .inl ⟨_, rfl⟩

/-- Settles O51: an event comes from DEB.FIRE, which COMPLETE, RXB.ACC, DRAIN and TICK can reach; a request comes from
POLL.READ and from SCHED, which TICK runs. -/
theorem outputsComeFromTheirOperations : Obligations.OutputsComeFromTheirOperations := by
  unfold Obligations.OutputsComeFromTheirOperations
  intro i s t h
  cases i with
  | reset d interval =>
    obtain ⟨-, hd, rfl⟩ := exec_reset_next d interval s t h
    exact ⟨rfl, rfl, rfl⟩
  | setup =>
    obtain ⟨-, rfl⟩ := exec_setup_next s t h
    exact ⟨rfl, rfl, rfl⟩
  | tick now =>
    obtain ⟨ws, es, txlog, one, -, evlog, -, -⟩ := TickFamily.tickOutputsAreBounded s t now h
    obtain ⟨-, -, rfl⟩ := exec_tick_next now s t h
    obtain ⟨linkUp, -⟩ := tickBody_frame now s
    exact ⟨⟨es, evlog⟩, ⟨ws, one, txlog⟩, linkUp⟩
  | rxArrive b =>
    obtain rfl := Host.Outcome.next.inj h
    exact rxPushAll_outputs [b] s
  | sched now =>
    obtain rfl := Host.Outcome.next.inj h
    obtain ⟨ws, txlog, one, -, evlog⟩ := sched_outputs now s
    exact ⟨evlog, ⟨ws, one, txlog⟩, sched_linkUp now s⟩
  | drain now =>
    obtain rfl := Host.Outcome.next.inj h
    obtain ⟨es, evlog, -, -⟩ := drain_outputs now s
    exact ⟨⟨es, evlog⟩, (outputs_of_withOutside (drain_frame now s).1 :)⟩
  | rxbSeek b =>
    obtain rfl := Host.Outcome.next.inj h
    exact ⟨rxbSeek_evlog b s, outputs_of_withOutside (rxbSeek_frame b s).1⟩
  | rxbAcc b now =>
    obtain rfl := Host.Outcome.next.inj h
    exact ⟨rxbAcc_appends_evlog b now s, outputs_of_withOutside (rxbAcc_frame b now s).1⟩
  | complete now =>
    obtain rfl := Host.Outcome.next.inj h
    obtain ⟨es, evlog, -⟩ := complete_outputs now s
    exact ⟨⟨es, evlog⟩, outputs_of_withOutside (complete_frame now s).1⟩
  | debFire u =>
    obtain rfl := Host.Outcome.next.inj h
    exact ⟨⟨_, debFire_evlog s u s.clock⟩, rfl, rfl⟩
  | pollRead =>
    obtain rfl := Host.Outcome.next.inj h
    exact ⟨rfl, ⟨_, le_rfl, txWrite_txlog s s.clock⟩, rfl⟩
  | resp u p e =>
    obtain rfl := Host.Outcome.next.inj h
    exact rxPushAll_outputs (respBytes s.cfg u p e) s
  | gate | bccChk | uidx | debStore =>
    obtain rfl := Host.Outcome.next.inj h
    exact ⟨rfl, rfl, rfl⟩

/-- Settles O60. -/
theorem zeroDividerInsideTick : Obligations.ZeroDividerInsideTick := by
  unfold Obligations.ZeroDividerInsideTick
  exact fun _ interval running => exec_reset_of_inTick running 0 interval

end Sys2Proof.Proofs.ExceptionFamily
end

section
/-! RESET outside a TICK (70_reset_and_hazards.md R270, R272): its answer by the divider, and what becomes of the bytes
that wait. -/

namespace Sys2Proof.Machine

/-- A divider of 0 is the one RESET refuses between operations (70_reset_and_hazards.md R270, U3). -/
theorem exec_reset_zero {s : State} (hi : s.inTick = false) (interval : Time) :
    exec (.reset 0 interval) s = .refused .badConfig := by
  rw [exec_reset, if_neg (Bool.eq_false_iff.mp hi), dif_neg (Nat.lt_irrefl 0)]

/-- Any other divider constructs an instance (70_reset_and_hazards.md R270). -/
theorem exec_reset_of_pos {s : State} (hi : s.inTick = false) {d : Nat} (hd : 0 < d) (interval : Time) :
    exec (.reset d interval) s = .next (construct ⟨d, hd⟩ interval s) := by
  rw [exec_reset, if_neg (Bool.eq_false_iff.mp hi), dif_pos hd]

/-- All the bytes that wait at a RESET are kept, or none (70_reset_and_hazards.md R272; log entry 13). -/
theorem queueAtReset_cases (s : State) : queueAtReset s = s.rxq ∨ queueAtReset s = [] := by
  cases hq : s.rxq with
  | nil => exact .inr (queueAtReset_of_nil hq)
  | cons b q =>
    simp only [queueAtReset, hq]
    split
    · exact .inl rfl
    · exact .inr rfl

end Sys2Proof.Machine
end

section
/-! The obligations of 70_reset_and_hazards.md. -/

namespace Sys2Proof.Proofs.ResetFamily

open Sys2Proof.Machine Sys2Proof.Safety

/-- Settles O1: the values stand in the reset state, and with nothing waiting a step is idle (R271). -/
theorem resetStateHasResetValues : Obligations.ResetStateHasResetValues := by
  unfold Obligations.ResetStateHasResetValues
  have idle : step State.reset = .next State.reset := step_of_pending_nil rfl
  exact ⟨rfl, rfl, rfl, rfl, rfl, rfl, rfl, rfl, rfl, rfl, rfl, rfl, rfl, rfl, rfl, idle⟩

/-- Settles O2: the instance RESET constructs, field by field. -/
theorem resetConstructsInstance : Obligations.ResetConstructsInstance := by
  unfold Obligations.ResetConstructsInstance
  refine ⟨fun s interval hi => exec_reset_zero hi interval, fun s d interval hi hd => ?_⟩
  refine ⟨construct ⟨d, hd⟩ interval s, exec_reset_of_pos hi hd interval, ?_⟩
  simp only [construct, PNat.mk_coe, and_self]

/-- Settles O3. -/
theorem resetKeepsOrFlushesQueue : Obligations.ResetKeepsOrFlushesQueue := by
  unfold Obligations.ResetKeepsOrFlushesQueue
  exact fun s d interval hi hd =>
    ⟨construct ⟨d, hd⟩ interval s, exec_reset_of_pos hi hd interval, queueAtReset_cases s⟩

/-- Settles O15: the reset state has the log of requests, the timestamp and the configuration of the instance a RESET
with its own two arguments constructs. -/
theorem pollsSpacedAtReset : Obligations.PollsSpacedAtReset := by
  unfold Obligations.PollsSpacedAtReset
  have constructed : PollsSpaced (construct Config.tickDivider Config.reqIntervalMs State.reset) :=
    pollsSpaced_construct Config.tickDivider Config.reqIntervalMs State.reset
  exact pollsSpaced_congr constructed rfl rfl rfl

/-- Settles O49: no cell is written, no TICK runs, and the queue and the log of requests are empty (R271, R272). -/
theorem machineInvAtReset : Obligations.MachineInvAtReset := by
  unfold Obligations.MachineInvAtReset
  exact
    { buf := rfl
      inTick := rfl
      depth := fun d _ => Nat.zero_le d
      polls := fun _ hr => absurd hr List.not_mem_nil }

end Sys2Proof.Proofs.ResetFamily
end
